-- ==== Sys2Proof/Word.lean ====
section
/-! DEFINITION. The widths of the device: one cell, one cell index, one bus-port word, one command
code (spec 00_scope R5, 30_encoding R62 and R65). Every quantity is unsigned (R6). -/

namespace Sys2Proof

/-- One cell of the buffer, one character of a text, one byte of a stream (`CELL_BITS` = 8, R5). -/
abbrev Byte := BitVec 8

/-- A device-relative cell index as the cursor and the field `A[10:0]` hold it (`ADDR_BITS` = 11, R5, R24). -/
abbrev Addr := BitVec 11

/-- One presentation of the bus port's inputs `L W A[10:0] DI[7:0]` (R62). -/
abbrev BusWord := BitVec 21

/-- One command code `CMD[7:0]` of the host port (R65). -/
abbrev Command := BitVec 8

/-- Which of the host's stream objects an operand names. The spec leaves the framing of a stream
operand open (R67): DESIGN CHOICE, log entry 4. -/
abbrev StreamId := Nat

end Sys2Proof
end

