-- ==== Sys2Proof/Config.lean ====
section
/-! DEFINITION. The implementation parameters of spec 00_scope R5, each at the value the spec gives
it (log entry 8), and the two values the model names where the spec leaves the launch state open
(log entries 1 and 2). -/

namespace Sys2Proof.Config

/-- `BUF_SIZE`: the number of cells, and what `SIZE` answers (R5, R34). -/
def bufSize : Nat := 2048

/-- `ADDR_BITS`: the width of the cursor (R5). -/
def addrBits : Nat := 11

/-- `CELL_BITS`: the width of a cell (R5). -/
def cellBits : Nat := 8

/-- `COLS_DOUBLE`: columns of a row in DoubleSize (R5). -/
def colsDouble : Nat := 40

/-- `COLS_NORMAL`: columns of a row in NormalSize (R5). -/
def colsNormal : Nat := 80

/-- `ROWS` (R5, decision D5). -/
def rows : Nat := 25

/-- `STATUS_ROW`: the row `STATUS` writes (R5, decision D5). -/
def statusRow : Nat := 24

/-- `ERROR_ROW`: the row `ERROR` writes (R5, decision D5). -/
def errorRow : Nat := 23

/-- `BLANK`: the blank glyph (R5, decision D4). -/
def blank : Byte := 0x20#8

/-- `CURSOR_INIT`: what initialization loads into the cursor (R5, decision D9). -/
def cursorInit : Addr := 0#11

/-- `RESET_MODE`: DoubleSize (R5, R26). -/
def resetMode : Bool := true

/-- `CKPT_VERSION` (R5, decision D6). -/
def ckptVersion : Byte := 0x01#8

/-- `CKPT_LEN`: the length of a checkpoint record in bytes (R5, R111). -/
def ckptLen : Nat := 2054

/-- `DEV_BASE`: the system-bus address of device offset 0. The spec leaves it OPEN (R49, decision
D20), so it has no body: a claim that uses it holds for every base. Log entry 9. -/
opaque devBase : Nat

/-- The cursor of `State.reset`. The spec calls it unspecified (R31): DESIGN CHOICE, unsafe, log
entry 1. `State.launch` takes any other. -/
def resetCursor : Addr := 0#11

/-- What a cell reads as that the memory's list does not name. The spec calls the launch contents
unspecified (R31): DESIGN CHOICE, unsafe, log entry 2. `State.launch` takes any other contents. -/
def unwrittenCell : Byte := blank

end Sys2Proof.Config
end

