-- ==== Sys2Proof/Syntax.lean ====
section
/-! DEFINITION. The eleven operations of spec 30_encoding R61, one constructor per row of the opcode
table. An address is a natural number, wider than the port's eleven bits, so that the condition
`OutOfRange` can arise (R64, R121; log entry 6). -/

namespace Sys2Proof

/-- One operation with its operands (R61): the unit of execution. -/
inductive Instr where
  /-- `BUSWR a, d`: latch the address and store the byte (40_port_access R81). -/
  | buswr (a : Nat) (d : Byte)
  /-- `BUSRD a`: latch the address and read the cell (R82). -/
  | busrd (a : Nat)
  /-- `WRC d`: store the byte at the cursor (R83). -/
  | wrc (d : Byte)
  /-- `RDC`: read the cell at the cursor (R84). -/
  | rdc
  /-- `SIZE`: the declared capacity (R80). -/
  | size
  /-- `STATUS text`: write the status row (41_text_lines R91). -/
  | status (text : List Byte)
  /-- `ERROR text`: write the error row (R92). -/
  | error (text : List Byte)
  /-- `TOGGLE`: the other mode, blank (42_mode_and_init R101). -/
  | toggle
  /-- `CHECKPOINT sink`: append the state's record to a stream (43_checkpoint R110). -/
  | checkpoint (sink : StreamId)
  /-- `RESTORE source`: load the state from a record at a stream's front (R112). -/
  | restore (source : StreamId)
  /-- `BEGIN`: blank the buffer, keep the mode (R104). -/
  | begin
deriving DecidableEq, Repr

end Sys2Proof
end

