-- ==== Sys2Proof/WellFormed.lean ====
section
/-! DEFINITION. Which operations the ports' words can carry: the address of a latching transaction
lies in `[0, size())` (spec 20_memory R41, 30_encoding R64). No other operand has a limit: a data
byte is any byte (R66), a text any finite byte string (R67), a stream any of the host's (R8). -/

namespace Sys2Proof

/-- The precondition `0 <= address < size()` of the bus contract (R41), and nothing else. -/
def Instr.wellFormed : Instr → Bool
  | .buswr a _ => decide (a < Config.bufSize)
  | .busrd a => decide (a < Config.bufSize)
  | .wrc _ => true
  | .rdc => true
  | .size => true
  | .status _ => true
  | .error _ => true
  | .toggle => true
  | .checkpoint _ => true
  | .restore _ => true
  | .begin => true

end Sys2Proof
end

