-- ==== Sys2Proof/Decode.lean ====
section
/-! DEFINITION. What arrives at the ports (spec 30_encoding R60), the total decoder of it (R62, R63,
R65, R69, R70), the encoder, the numbering of the opcode table, and the textual form (R72). -/

namespace Sys2Proof

/-- The two ports operations arrive on (R60). The scan port carries none. -/
inductive Port where
  | bus
  | host
deriving DecidableEq, Repr

/-- The operand a command is delivered with, out of band and whole (R65, R67). -/
inductive HostOperand where
  /-- No operand. -/
  | absent
  /-- `TEXT`, a finite byte string. -/
  | text (bytes : List Byte)
  /-- One of the host's streams, a sink or a source. -/
  | stream (id : StreamId)
deriving DecidableEq, Repr

/-- One thing an agent presents to the device: a bus transaction or a host command, encoded (R60);
or a call of the bus contract by a host that carries a wider address than the port does (R64,
R121; log entry 6). -/
inductive Request where
  | bus (word : BusWord)
  | host (cmd : Command) (operand : HostOperand)
  | memWrite (address : Nat) (byte : Byte)
  | memRead (address : Nat)
deriving DecidableEq, Repr

/-- Why a presentation spells no operation. -/
inductive DecodeError where
  /-- A reserved format B word (R69). -/
  | reservedBusWord (word : BusWord)
  /-- A reserved format H code (R69). -/
  | reservedHostCode (cmd : Command)
  /-- A command without the operand its row of R65 gives it, or with another (log entry 7). -/
  | operandMismatch (cmd : Command)
deriving DecidableEq, Repr

/-- The port a presentation arrives on. -/
def Request.port : Request → Port
  | .bus _ => .bus
  | .host _ _ => .host
  | .memWrite _ _ => .bus
  | .memRead _ => .bus

/-- The port each operation belongs to (R61, R130). -/
def Instr.port : Instr → Port
  | .buswr _ _ => .bus
  | .busrd _ => .bus
  | .wrc _ => .bus
  | .rdc => .bus
  | .size => .host
  | .status _ => .host
  | .error _ => .host
  | .toggle => .host
  | .checkpoint _ => .host
  | .restore _ => .host
  | .begin => .host

/-! Format B (R62): bit 20 is `L`, bit 19 is `W`, bits 18:8 are `A`, bits 7:0 are `D`. -/

/-- `L`: load the cursor from `A` first. -/
def busL (w : BusWord) : Bool := w.getLsbD 20

/-- `W`: write, not read. -/
def busW (w : BusWord) : Bool := w.getLsbD 19

/-- `A[10:0]`. -/
def busA (w : BusWord) : Addr := w.extractLsb' 8 11

/-- `D[7:0]`. -/
def busD (w : BusWord) : Byte := w.extractLsb' 0 8

/-- The four bus operations by `L` and `W` (R63). A non-latching transaction drives `A` to zero and a
read drives `D` to zero; any other word is reserved (R69). -/
def decodeBus (w : BusWord) : Except DecodeError Instr :=
  match busL w, busW w with
  | true, true => .ok (.buswr (busA w).toNat (busD w))
  | true, false =>
    if busD w = 0#8 then .ok (.busrd (busA w).toNat) else .error (.reservedBusWord w)
  | false, true =>
    if busA w = 0#11 then .ok (.wrc (busD w)) else .error (.reservedBusWord w)
  | false, false =>
    if busA w = 0#11 ∧ busD w = 0#8 then .ok .rdc else .error (.reservedBusWord w)

/-- A command that takes no operand. -/
def commandAlone (c : Command) (i : Instr) : HostOperand → Except DecodeError Instr
  | .absent => .ok i
  | .text _ => .error (.operandMismatch c)
  | .stream _ => .error (.operandMismatch c)

/-- A command that takes `TEXT`. -/
def commandWithText (c : Command) (i : List Byte → Instr) : HostOperand → Except DecodeError Instr
  | .absent => .error (.operandMismatch c)
  | .text t => .ok (i t)
  | .stream _ => .error (.operandMismatch c)

/-- A command that takes a stream. -/
def commandWithStream (c : Command) (i : StreamId → Instr) : HostOperand → Except DecodeError Instr
  | .absent => .error (.operandMismatch c)
  | .text _ => .error (.operandMismatch c)
  | .stream k => .ok (i k)

/-- The seven command codes (R65); 0x00 and 0x08 to 0xFF are reserved (R69). -/
def decodeHost (c : Command) (o : HostOperand) : Except DecodeError Instr :=
  match c with
  | 0x01#8 => commandAlone c .size o
  | 0x02#8 => commandWithText c .status o
  | 0x03#8 => commandWithText c .error o
  | 0x04#8 => commandAlone c .toggle o
  | 0x05#8 => commandWithStream c .checkpoint o
  | 0x06#8 => commandWithStream c .restore o
  | 0x07#8 => commandAlone c .begin o
  | _ => .error (.reservedHostCode c)

/-- The decoder: total, told the format by the port (R68), rejecting by name (R70). -/
def decode : Request → Except DecodeError Instr
  | .bus w => decodeBus w
  | .host c o => decodeHost c o
  | .memWrite a d => .ok (.buswr a d)
  | .memRead a => .ok (.busrd a)

/-! The encoder, written from the same tables (R62, R63, R65). -/

/-- The bus word of the four fields, each at its place (R62): for `BUSWR` this is `0x180000 + 256 * a + d`
(R81). -/
def busWord (l w : Bool) (a : Addr) (d : Byte) : BusWord :=
  BitVec.ofNat 21 (0x100000 * l.toNat + 0x080000 * w.toNat + 256 * a.toNat + d.toNat)

/-- The presentation of an operation at its port. An address that no bus word can carry (R64) is
presented as the call of the bus contract. -/
def encode : Instr → Request
  | .buswr a d =>
    if a < Config.bufSize then .bus (busWord true true (BitVec.ofNat 11 a) d) else .memWrite a d
  | .busrd a =>
    if a < Config.bufSize then .bus (busWord true false (BitVec.ofNat 11 a) 0#8) else .memRead a
  | .wrc d => .bus (busWord false true 0#11 d)
  | .rdc => .bus (busWord false false 0#11 0#8)
  | .size => .host 0x01#8 .absent
  | .status t => .host 0x02#8 (.text t)
  | .error t => .host 0x03#8 (.text t)
  | .toggle => .host 0x04#8 .absent
  | .checkpoint k => .host 0x05#8 (.stream k)
  | .restore k => .host 0x06#8 (.stream k)
  | .begin => .host 0x07#8 .absent

/-! The numbering of the opcode table. A row of at most 8 bits is a command of the host port, a
longer one a word of the bus port (R68). The table gives an out-of-band operand no bits: it is the
empty text, or stream 0 (log entry 10). -/

/-- The operand of zeros of a command code. -/
def tableOperand (c : Command) : HostOperand :=
  match c with
  | 0x02#8 => .text []
  | 0x03#8 => .text []
  | 0x05#8 => .stream 0
  | 0x06#8 => .stream 0
  | _ => .absent

/-- How many bits a word of the port has that a row of `nbits` bits arrives on. -/
def tableWidth (nbits : Nat) : Nat := if nbits ≤ 8 then 8 else 21

/-- The presentation of the word `w` of a row of `nbits` bits. -/
def tableRequest (nbits w : Nat) : Request :=
  if nbits ≤ 8 then .host (BitVec.ofNat 8 w) (tableOperand (BitVec.ofNat 8 w))
  else .bus (BitVec.ofNat 21 w)

/-- The operation the decoder reads from the word `w` of the opcode table; none where it refuses, and
none for a number the port has no pins for. -/
def decodeTableWord (nbits w : Nat) : Option Instr :=
  if w < 2 ^ tableWidth nbits then
    match decode (tableRequest nbits w) with
    | .ok i => some i
    | .error _ => none
  else none

/-! The textual form of an operation (R72). -/

/-- The mnemonic, as the opcode table spells it (R61). -/
def Instr.mnemonic : Instr → String
  | .buswr _ _ => "BUSWR"
  | .busrd _ => "BUSRD"
  | .wrc _ => "WRC"
  | .rdc => "RDC"
  | .size => "SIZE"
  | .status _ => "STATUS"
  | .error _ => "ERROR"
  | .toggle => "TOGGLE"
  | .checkpoint _ => "CHECKPOINT"
  | .restore _ => "RESTORE"
  | .begin => "BEGIN"

/-- A text operand between double quotes, each byte the character of that code (R72). -/
def textLiteral (t : List Byte) : String :=
  "\"" ++ String.ofList (t.map fun b => Char.ofNat b.toNat) ++ "\""

/-- The operands, separated by commas, numbers in decimal (R72). A stream, which the spec names by a
free identifier, is written by its number. -/
def Instr.operandText : Instr → String
  | .buswr a d => " " ++ toString a ++ ", " ++ toString d.toNat
  | .busrd a => " " ++ toString a
  | .wrc d => " " ++ toString d.toNat
  | .rdc => ""
  | .size => ""
  | .status t => " " ++ textLiteral t
  | .error t => " " ++ textLiteral t
  | .toggle => ""
  | .checkpoint k => " stream" ++ toString k
  | .restore k => " stream" ++ toString k
  | .begin => ""

/-- The operation as the spec writes it: the mnemonic and its operands (R72). -/
def Instr.asm (i : Instr) : String := i.mnemonic ++ i.operandText

end Sys2Proof
end

