-- ==== Sys2Proof/Machine/State.lean ====
section
/-! DEFINITION. The state of the device as plain data (spec 10_state R22), with what its ports last
answered and what the host holds and has issued, so that a step is a function of one value. -/

namespace Sys2Proof.Machine

/-- The outcome of an operation (60_exceptions R120). -/
inductive Condition where
  /-- Success. -/
  | ok
  /-- An address outside `[0, size())`, reported with that address (R121). -/
  | outOfRange (address : Nat)
  /-- Malformed or version-mismatched restore input (R122). -/
  | corruptCheckpoint
  /-- A status text longer than the row: truncated, and written (R123). -/
  | displayOverflow
deriving DecidableEq, Repr

/-- The value an operation returns (30_encoding R71): a byte on `DO[7:0]`, or the number of `SIZE`. -/
inductive Value where
  | byte (b : Byte)
  | number (n : Nat)
deriving DecidableEq, Repr

/-- What an operation answers, to the agent at the port it came from (00_scope R9, 60_exceptions R125). -/
structure Response where
  port : Port
  cond : Condition
  value : Option Value
deriving DecidableEq, Repr

/-- The device has no trap: none of its three conditions stops it (R120, R125, R128), and no access it
makes can miss a cell (R22, R50). So nothing is a fault, and the type is empty (log entry 12). -/
inductive Fault where
deriving DecidableEq, Repr

/-- Why a step is refused. -/
inductive Refusal where
  /-- Raised by a refused arm of `exec` only, for an operation with no meaning yet; safe. No arm is
  refused in this model. -/
  | notModelled (mnemonic : String)
  /-- Raised by `step` on a reserved format B word (30_encoding R69, R70); safe. -/
  | reservedBusWord (word : BusWord)
  /-- Raised by `step` on a reserved format H code (R69, R70); safe. -/
  | reservedHostCode (cmd : Command)
  /-- Raised by `step` on a command whose operand is not the one R65 gives it (log entry 7); safe. -/
  | operandMismatch (cmd : Command)
deriving DecidableEq, Repr

/-- The device (`buffer`, `cursor`, `doubleSize`: all of R22), the outputs of its ports, and the host's
side of them. -/
structure State where
  /-- `buffer` (R23): the cells, by index, in the canonical form of `bufferWf`. -/
  buffer : List Host.Cell
  /-- `cursor[10:0]` (R24). -/
  cursor : Addr
  /-- `double_size` (R26): true is DoubleSize. -/
  doubleSize : Bool
  /-- What the last operation answered; none before the first. No operation reads it (R29, log entry 3). -/
  response : Option Response
  /-- The host's stream objects, by number, in the canonical form of `streamsWf` (R8, R42, log entry 4). -/
  streams : List (StreamId × List Byte)
  /-- The operations issued and not yet executed, in issue order (R13, R21, log entry 5). -/
  pending : List Request
deriving DecidableEq, Repr

/-- The device as constructed (R30): DoubleSize, no answer, nothing in flight (70_reset R141). Its cells
and its cursor are unspecified (R31), so they are arguments: a claim about launch holds for all. -/
def State.launch (buffer : List Host.Cell) (cursor : Addr) : State where
  buffer := buffer
  cursor := cursor
  doubleSize := Config.resetMode
  response := none
  streams := []
  pending := []

/-- The launch state the model names (log entries 1 and 2): nothing listed, cursor 0. -/
def State.reset : State := State.launch [] Config.resetCursor

end Sys2Proof.Machine
end

