-- ==== Sys2Proof/Machine/Ops.lean ====
section
/-! DEFINITION. The named operations over the buffer, the cursor, the streams, the answers and the
pending requests. Every meaning is written over these. -/

namespace Sys2Proof.Machine

/-! ### Tables: a list of keys and values, keys rising, default values unlisted -/

/-- The value of a key: the first entry for it, else the default. -/
def tableRead {β : Type} (dflt : β) : List (Nat × β) → Nat → β
  | [], _ => dflt
  | (k, v) :: rest, a => if k = a then v else tableRead dflt rest a

/-- An entry put before the first greater key. -/
def tableInsert {β : Type} (a : Nat) (x : β) : List (Nat × β) → List (Nat × β)
  | [] => [(a, x)]
  | (k, v) :: rest => if a < k then (a, x) :: (k, v) :: rest else (k, v) :: tableInsert a x rest

/-- The table without a key. -/
def tableErase {β : Type} (a : Nat) : List (Nat × β) → List (Nat × β)
  | [] => []
  | (k, v) :: rest => if k = a then tableErase a rest else (k, v) :: tableErase a rest

/-- The table with a key at a value; the default is stored by listing nothing. -/
def tableWrite {β : Type} [DecidableEq β] (dflt : β) (t : List (Nat × β)) (a : Nat) (x : β) :
    List (Nat × β) :=
  if x = dflt then tableErase a t else tableInsert a x (tableErase a t)

/-- The canonical form from a key on: keys strictly rising, no default value listed. -/
def tableSorted {β : Type} [DecidableEq β] (dflt : β) : Nat → List (Nat × β) → Bool
  | _, [] => true
  | lo, (k, v) :: rest => decide (lo ≤ k) && !decide (v = dflt) && tableSorted dflt (k + 1) rest

/-! ### The buffer (20_memory R40): a table of bytes below `BUF_SIZE` -/

/-- The byte of a cell (R47). -/
def bufferRead (m : List Host.Cell) (a : Nat) : Byte := tableRead Config.unwrittenCell m a

/-- The buffer with one cell changed (R47). -/
def bufferWrite (m : List Host.Cell) (a : Nat) (v : Byte) : List Host.Cell :=
  tableWrite Config.unwrittenCell m a v

/-- Consecutive cells from a base on, in ascending order. -/
def bufferWriteFrom (m : List Host.Cell) (base : Nat) : List Byte → List Host.Cell
  | [] => m
  | v :: vs => bufferWriteFrom (bufferWrite m base v) (base + 1) vs

/-- The listing of the cells `base`, `base + 1`, ... that hold the given bytes. -/
def bufferOfBytesFrom (base : Nat) : List Byte → List Host.Cell
  | [] => []
  | v :: vs =>
    if v = Config.unwrittenCell then bufferOfBytesFrom (base + 1) vs
    else (base, v) :: bufferOfBytesFrom (base + 1) vs

/-- All cells, in ascending index order, as `CHECKPOINT` reads them (R43, R110). -/
def bufferBytes (m : List Host.Cell) : List Byte :=
  (List.range Config.bufSize).map (bufferRead m)

/-- The canonical form of the buffer: keys rising, no unlisted value listed, no key outside the cell
space (R40, R50). -/
def bufferWf (m : List Host.Cell) : Bool :=
  tableSorted Config.unwrittenCell 0 m && m.all fun e => decide (e.1 < Config.bufSize)

/-- `buffer[i]` (00_scope R7). -/
def readCell (s : State) (i : Nat) : Byte := bufferRead s.buffer i

/-- `buffer[i] <- v` (R7). -/
def writeCell (i : Nat) (v : Byte) (s : State) : State :=
  { s with buffer := bufferWrite s.buffer i v }

/-- The whole buffer replaced by cells 0, 1, ... of the given bytes. -/
def writeAllCells (bytes : List Byte) (s : State) : State :=
  { s with buffer := bufferOfBytesFrom 0 bytes }

/-! ### The cursor (10_state R24, R25): loaded whole, never computed on -/

/-- `cursor <- a`. -/
def loadCursor (a : Addr) (s : State) : State := { s with cursor := a }

/-- `buffer[cursor] <- d`: the data transfer of a writing bus transaction (R83). -/
def storeAtCursor (d : Byte) (s : State) : State := writeCell s.cursor.toNat d s

/-- `buffer[cursor]`: the data transfer of a reading bus transaction (R84). -/
def fetchAtCursor (s : State) : Byte := readCell s s.cursor.toNat

/-! ### Answers (00_scope R9, 60_exceptions R125) -/

/-- `respond (cond, value)` to the agent at a port. -/
def answer (p : Port) (c : Condition) (v : Option Value) (s : State) : State :=
  { s with response := some { port := p, cond := c, value := v } }

/-- `respond (OK, value)`. -/
def answerOk (p : Port) (v : Option Value) (s : State) : State := answer p .ok v s

/-- `raise condition`: what stands for taking an exception (R9, R125). The operation ends, no value is
returned, nothing of the device changes and control goes nowhere; there is no return (R129). -/
def raise (p : Port) (c : Condition) (s : State) : State := answer p c none s

/-! ### Whole rows and the whole buffer -/

/-- The `w` bytes a row gets from a text: its first `min(n, w)` bytes, then `BLANK` (41_text_lines R90). -/
def rowBytes (w : Nat) (text : List Byte) : List Byte :=
  text.take w ++ List.replicate (w - text.length) Config.blank

/-- `WriteRow(base, w, text)` (R90). -/
def writeRow (base w : Nat) (text : List Byte) (s : State) : State :=
  { s with buffer := bufferWriteFrom s.buffer base (rowBytes w text) }

/-- The buffer every cell of which holds `BLANK` (10_state R32). -/
@[irreducible] def blankBuffer : List Host.Cell :=
  bufferOfBytesFrom 0 (List.replicate Config.bufSize Config.blank)

/-- `InitBlank` (42_mode_and_init R100): every cell `BLANK`, the cursor `CURSOR_INIT`. -/
def initBlank (s : State) : State :=
  loadCursor Config.cursorInit { s with buffer := blankBuffer }

/-! ### The host's streams (00_scope R8) -/

/-- `StreamRead(in, k)`: at most `k` bytes from the front, and the rest. -/
def streamRead (bytes : List Byte) (k : Nat) : List Byte × List Byte :=
  (bytes.take k, bytes.drop k)

/-- `StreamWrite(out, bytes)`: appended after what is there. It never fails (decision D17, log entry 11). -/
def streamWrite (out bytes : List Byte) : List Byte := out ++ bytes

/-- The content of a stream. -/
def streamOf (s : State) (k : StreamId) : List Byte := tableRead [] s.streams k

/-- A stream's content replaced. -/
def putStream (k : StreamId) (bytes : List Byte) (s : State) : State :=
  { s with streams := tableWrite [] s.streams k bytes }

/-- The canonical form of the streams: numbers rising, no empty stream listed. -/
def streamsWf (t : List (StreamId × List Byte)) : Bool := tableSorted [] 0 t

/-! ### Arrival of operations (00_scope R13, 10_state R21) -/

/-- The operation issued earliest, and the state once it has been taken. -/
def takeRequest (s : State) : Option (Request × State) :=
  match s.pending with
  | [] => none
  | r :: rest => some (r, { s with pending := rest })

/-- The refusal of a presentation that spells no operation (30_encoding R70). -/
def refusalOf : DecodeError → Refusal
  | .reservedBusWord w => .reservedBusWord w
  | .reservedHostCode c => .reservedHostCode c
  | .operandMismatch c => .operandMismatch c

end Sys2Proof.Machine
end

