-- ==== Sys2Proof/Machine/Operands.lean ====
section
/-! DEFINITION. The operand forms (spec 30_encoding R66, R67) and the geometry that a mode gives a text
operand (00_scope R10). -/

namespace Sys2Proof.Machine

/-- The address operand of the bus contract: the cell index, or none outside `[0, size())`. The range
check comes before anything else (R64, 60_exceptions R121, R127). -/
def addressOperand (a : Nat) : Option Addr :=
  if a < Config.bufSize then some (BitVec.ofNat 11 a) else none

/-- `COLS(m)` (R10). -/
def cols (m : Bool) : Nat := if m then Config.colsDouble else Config.colsNormal

/-- `ROWBASE(m, r)` (R10). -/
def rowBase (m : Bool) (r : Nat) : Nat := r * cols m

/-- `SBASE(m)` (R10): the first cell of the status row. -/
def statusBase (m : Bool) : Nat := rowBase m Config.statusRow

/-- `EBASE(m)` (R10): the first cell of the error row. -/
def errorBase (m : Bool) : Nat := rowBase m Config.errorRow

/-- `VIS(m)` (R10): the number of visible cells. -/
def visible (m : Bool) : Nat := Config.rows * cols m

/-- A 16-bit value as its two bytes, low byte first (R11, 20_memory R43). -/
def le16Bytes (n : Nat) : List Byte := [BitVec.ofNat 8 n, BitVec.ofNat 8 (n / 256)]

/-- `lo + 256 * hi` (R11). -/
def le16Value (lo hi : Byte) : Nat := lo.toNat + 256 * hi.toNat

end Sys2Proof.Machine
end

