-- ==== Sys2Proof/Machine/Flags.lean ====
section
/-! DEFINITION. The one mode flag (spec 10_state R26, R27) and the condition codes (60_exceptions R120).
The device has no status flags (R29). -/

namespace Sys2Proof.Machine

/-- `double_size <- m`. -/
def setMode (m : Bool) (s : State) : State := { s with doubleSize := m }

/-- `double_size <- not double_size` (R101). -/
def flipMode (s : State) : State := setMode (!s.doubleSize) s

/-- The mode byte of a checkpoint record (43_checkpoint R111). -/
def modeByte (m : Bool) : Byte := if m then 0x01#8 else 0x00#8

/-- The mode a mode byte names; only 0x00 and 0x01 name one (R111, R112 check 3). -/
def modeOfByte (b : Byte) : Option Bool :=
  if b = 0x00#8 then some false else if b = 0x01#8 then some true else none

/-- `COND[1:0]` (R120). -/
def Condition.code : Condition → BitVec 2
  | .ok => 0#2
  | .outOfRange _ => 1#2
  | .corruptCheckpoint => 2#2
  | .displayOverflow => 3#2

/-- What `STATUS` answers for a text in a mode (R91, R123): `DisplayOverflow` when it is longer than the
row, not when it just fills it. -/
def statusCondition (m : Bool) (text : List Byte) : Condition :=
  if text.length > cols m then .displayOverflow else .ok

end Sys2Proof.Machine
end

