-- ==== Sys2Proof/Machine/Checkpoint.lean ====
section
/-! DEFINITION. The checkpoint record and `CHECKPOINT`, `RESTORE` (spec 43_checkpoint). -/

namespace Sys2Proof.Machine

/-- The record of a state (R111): version, size, mode, cursor, cells. -/
def checkpointRecord (s : State) : List Byte :=
  Config.ckptVersion :: le16Bytes Config.bufSize ++ modeByte s.doubleSize ::
    le16Bytes s.cursor.toNat ++ bufferBytes s.buffer

/-- `CHECKPOINT sink` (R110): the record is appended; the device does not change. -/
def execCheckpoint (sink : StreamId) (s : State) : Host.Outcome State Fault Refusal :=
  .next (answerOk .host none
    (putStream sink (streamWrite (streamOf s sink) (checkpointRecord s)) s))

/-- The staging area of one `RESTORE` (10_state R28). -/
structure Staged where
  mode : Bool
  cursor : Addr
  cells : List Byte
deriving DecidableEq, Repr

/-- One read of `k` bytes and one check of R112: none when the source ends first or the bytes are not
accepted; and what is left of the source, the bytes of this read gone either way (R113). -/
def readField {α : Type} (k : Nat) (accept : List Byte → Option α) (source : List Byte) :
    Option α × List Byte :=
  let (got, rest) := streamRead source k
  (if got.length < k then none else accept got, rest)

/-- Check 1: the version is `CKPT_VERSION`. -/
def acceptVersion : List Byte → Option Unit
  | [v] => if v = Config.ckptVersion then some () else none
  | _ => none

/-- Check 2: the size word is `BUF_SIZE`. -/
def acceptSize : List Byte → Option Unit
  | [lo, hi] => if le16Value lo hi = Config.bufSize then some () else none
  | _ => none

/-- Check 3: the mode byte is 0x00 or 0x01. -/
def acceptMode : List Byte → Option Bool
  | [b] => modeOfByte b
  | _ => none

/-- Check 4: the cursor word is a cell index. -/
def acceptCursor : List Byte → Option Addr
  | [lo, hi] => addressOperand (le16Value lo hi)
  | _ => none

/-- Check 5 asks only for the length: every cell byte is accepted. -/
def acceptCells (bytes : List Byte) : Option (List Byte) := some bytes

/-- The five reads and checks of R112, in stream order, up to the first that fails. -/
def readRecord (source : List Byte) : Option Staged × List Byte :=
  match readField 1 acceptVersion source with
  | (none, rest) => (none, rest)
  | (some (), afterVersion) =>
    match readField 2 acceptSize afterVersion with
    | (none, rest) => (none, rest)
    | (some (), afterSize) =>
      match readField 1 acceptMode afterSize with
      | (none, rest) => (none, rest)
      | (some m, afterMode) =>
        match readField 2 acceptCursor afterMode with
        | (none, rest) => (none, rest)
        | (some c, afterCursor) =>
          match readField Config.bufSize acceptCells afterCursor with
          | (none, rest) => (none, rest)
          | (some cells, rest) => (some { mode := m, cursor := c, cells := cells }, rest)

/-- The swap of R112: buffer, cursor and mode from the staging area. -/
def commit (g : Staged) (s : State) : State :=
  setMode g.mode (loadCursor g.cursor (writeAllCells g.cells s))

/-- `RESTORE source` (R112): all or nothing; the source loses what was read (R113). -/
def execRestore (source : StreamId) (s : State) : Host.Outcome State Fault Refusal :=
  match readRecord (streamOf s source) with
  | (none, rest) => .next (raise .host .corruptCheckpoint (putStream source rest s))
  | (some g, rest) => .next (answerOk .host none (commit g (putStream source rest s)))

end Sys2Proof.Machine
end

