-- ==== Sys2Proof/Machine/ModeInit.lean ====
section
/-! DEFINITION. Mode change and initialization: `TOGGLE`, `BEGIN` (spec 42_mode_and_init). -/

namespace Sys2Proof.Machine

/-- `TOGGLE` (R101): the other mode, then `InitBlank`. -/
def execToggle (s : State) : Host.Outcome State Fault Refusal :=
  .next (answerOk .host none (initBlank (flipMode s)))

/-- `BEGIN` (R104): `InitBlank`; the mode stays. -/
def execBegin (s : State) : Host.Outcome State Fault Refusal :=
  .next (answerOk .host none (initBlank s))

end Sys2Proof.Machine
end

