-- ==== Sys2Proof/Machine/PortAccess.lean ====
section
/-! DEFINITION. The bus contract: `SIZE`, `BUSWR`, `BUSRD`, `WRC`, `RDC` (spec 40_port_access). -/

namespace Sys2Proof.Machine

/-- `SIZE` (R80): the constant capacity. -/
def execSize (s : State) : Host.Outcome State Fault Refusal :=
  .next (answerOk .host (some (.number Config.bufSize)) s)

/-- `WRC d` (R83): the cursor is not advanced. -/
def execWrc (d : Byte) (s : State) : Host.Outcome State Fault Refusal :=
  .next (answerOk .bus none (storeAtCursor d s))

/-- `RDC` (R84). -/
def execRdc (s : State) : Host.Outcome State Fault Refusal :=
  .next (answerOk .bus (some (.byte (fetchAtCursor s))) s)

/-- `BUSWR a, d` (R81): range check, latch, store through the cursor. -/
def execBuswr (a : Nat) (d : Byte) (s : State) : Host.Outcome State Fault Refusal :=
  match addressOperand a with
  | none => .next (raise .bus (.outOfRange a) s)
  | some c => .next (answerOk .bus none (storeAtCursor d (loadCursor c s)))

/-- `BUSRD a` (R82): range check, latch, read through the cursor. -/
def execBusrd (a : Nat) (s : State) : Host.Outcome State Fault Refusal :=
  match addressOperand a with
  | none => .next (raise .bus (.outOfRange a) s)
  | some c =>
    .next (answerOk .bus (some (.byte (fetchAtCursor (loadCursor c s)))) (loadCursor c s))

end Sys2Proof.Machine
end

