-- ==== Sys2Proof/Machine/TextLines.lean ====
section
/-! DEFINITION. The reserved rows: `STATUS`, `ERROR` (spec 41_text_lines). -/

namespace Sys2Proof.Machine

/-- `STATUS text` (R91): the status row of the current mode, truncated and padded; the overflow is
answered after the write (R123). -/
def execStatus (text : List Byte) (s : State) : Host.Outcome State Fault Refusal :=
  .next (answer .host (statusCondition s.doubleSize text) none
    (writeRow (statusBase s.doubleSize) (cols s.doubleSize) text s))

/-- `ERROR text` (R92): the error row of the current mode; it cannot fail. -/
def execError (text : List Byte) (s : State) : Host.Outcome State Fault Refusal :=
  .next (answerOk .host none
    (writeRow (errorBase s.doubleSize) (cols s.doubleSize) text s))

end Sys2Proof.Machine
end

