-- ==== Sys2Proof/Machine/Dispatch.lean ====
section
/-! DEFINITION. One arm per operation of spec 30_encoding R61. -/

namespace Sys2Proof.Machine

def exec (i : Instr) (s : State) : Host.Outcome State Fault Refusal :=
  match i with
  | .buswr a d => Sys2Proof.Machine.execBuswr a d s
  | .busrd a => Sys2Proof.Machine.execBusrd a s
  | .wrc d => Sys2Proof.Machine.execWrc d s
  | .rdc => Sys2Proof.Machine.execRdc s
  | .size => Sys2Proof.Machine.execSize s
  | .status text => Sys2Proof.Machine.execStatus text s
  | .error text => Sys2Proof.Machine.execError text s
  | .toggle => Sys2Proof.Machine.execToggle s
  | .checkpoint sink => Sys2Proof.Machine.execCheckpoint sink s
  | .restore source => Sys2Proof.Machine.execRestore source s
  | .begin => Sys2Proof.Machine.execBegin s

end Sys2Proof.Machine
end

