-- ==== Sys2Proof/Machine/Step.lean ====
section
/-! DEFINITION. One step: the earliest operation issued is decoded and executed, whole (spec 00_scope
R13). With nothing issued the device, purely reactive, stays as it is (R12; log entry 5). -/

namespace Sys2Proof.Machine

/-- One step of the device. -/
def step (s : State) : Host.Outcome State Fault Refusal :=
  match takeRequest s with
  | none => .next s
  | some (r, t) =>
    match decode r with
    | .ok i => exec i t
    | .error e => .refused (refusalOf e)

/-- The state in which the word `w` of an opcode-table row of `nbits` bits is the next operation at its
port (log entries 5 and 10). -/
def State.withFetchWord (s : State) (nbits w : Nat) : State :=
  { s with pending := tableRequest nbits w :: s.pending }

end Sys2Proof.Machine
end

