-- ==== Sys2Proof/Machine/Pseudo.lean ====
section
/-! DEFINITION. A list of operations issued in list order (spec 10_state R21), and the two
pseudo-operations (30_encoding R73). -/

namespace Sys2Proof.Machine

/-- The operations of a list, one after the other (R13, R21). -/
def execList : List Instr → State → Host.Outcome State Fault Refusal
  | [], s => .next s
  | i :: rest, s =>
    match exec i s with
    | .next t => execList rest t
    | .fault r => .fault r
    | .refused r => .refused r

/-- `SETCUR a`: `BUSRD a`, its byte discarded (R73). -/
def setcur (a : Nat) : List Instr := [.busrd a]

/-- The `BUSWR` operations of `PUTS`, one per byte, at rising addresses (R73). -/
def putsFrom (a : Nat) : List Byte → List Instr
  | [] => []
  | c :: cs => .buswr a c :: putsFrom (a + 1) cs

/-- `PUTS a, "c0 c1 ..."`: legal only when the text ends inside the buffer (R73). -/
def puts (a : Nat) (text : List Byte) : Option (List Instr) :=
  if a + text.length ≤ Config.bufSize then some (putsFrom a text) else none

end Sys2Proof.Machine
end

