-- ==== Sys2Proof/Machine/Scan.lean ====
section
/-! DEFINITION. What reaches the device from beside its two ports: the renderer's scan port (spec
20_memory R53) and the window the host bus gives the device (R49). Neither is an operation. -/

namespace Sys2Proof.Machine

/-- The scan port's view of the mode. -/
def scanMode (s : State) : Bool := s.doubleSize

/-- The scan port's view of a cell. -/
def scanCell (s : State) (i : Nat) : Byte := readCell s i

/-- One row of `Screen(m, buffer)`. -/
def screenRow (m : Bool) (buffer : List Host.Cell) (r : Nat) : List Byte :=
  (List.range (cols m)).map fun c => bufferRead buffer (rowBase m r + c)

/-- `Screen(m, buffer)` (R53): `ROWS` rows of `COLS(m)` codes; the off-screen cells are not shown. -/
def screen (m : Bool) (buffer : List Host.Cell) : List (List Byte) :=
  (List.range Config.rows).map (screenRow m buffer)

/-- The device-relative address the host bus makes of a system address: `DEV_BASE` subtracted, and the
range check before dispatch (R14, R41, R49). None when the address is outside the window: DEDUCED, log
entry 9. -/
def windowOffset (systemAddress : Nat) : Option Nat :=
  if Config.devBase ≤ systemAddress ∧ systemAddress < Config.devBase + Config.bufSize then
    some (systemAddress - Config.devBase)
  else none

end Sys2Proof.Machine
end

