-- ==== Sys2Proof/Safety.lean ====
section
/-! DEFINITION. The terms in which claims speak: the invariant, blank states, frames, the table of
conditions, valid records. -/

namespace Sys2Proof.Safety

open Sys2Proof.Machine

/-- The model's invariant: the buffer and the streams are in canonical form, no cell outside the cell
space is listed. `cursor < BUF_SIZE` (10_state R22) holds by the cursor's type. -/
abbrev StateInv (s : State) : Prop := bufferWf s.buffer = true ∧ streamsWf s.streams = true

/-- A state the device can be launched in (10_state R30, R31): DoubleSize, no answer, nothing in
flight, any cells and any cursor. -/
abbrev IsLaunch (s : State) : Prop :=
  s.doubleSize = true ∧ s.response = none ∧ s.pending = []

/-- `BlankState(m)` (10_state R32). -/
def IsBlank (m : Bool) (s : State) : Prop :=
  s.doubleSize = m ∧ s.cursor = Config.cursorInit ∧
    ∀ i, i < Config.bufSize → readCell s i = Config.blank

/-- Every cell of `t` reads as in `s`. -/
def SameCells (s t : State) : Prop := ∀ i, readCell t i = readCell s i

/-- Every cell outside the `n` cells from `base` on reads as in `s`. -/
def SameCellsOutside (base n : Nat) (s t : State) : Prop :=
  ∀ i, i < base ∨ base + n ≤ i → readCell t i = readCell s i

/-- The host's side is untouched: no stream changed, no issued operation added or lost. -/
def SameHostSide (s t : State) : Prop := t.streams = s.streams ∧ t.pending = s.pending

/-- The three pieces of architectural state agree (10_state R22). -/
def SameDevice (s t : State) : Prop :=
  t.buffer = s.buffer ∧ t.cursor = s.cursor ∧ t.doubleSize = s.doubleSize

/-- `t` is the state in which an operation answered this, at this port (00_scope R9). -/
def Answered (t : State) (p : Port) (c : Condition) (v : Option Value) : Prop :=
  t.response = some { port := p, cond := c, value := v }

/-- The host's side but one stream is untouched. -/
def SameHostSideBut (k : StreamId) (s t : State) : Prop :=
  (∀ j, j ≠ k → streamOf t j = streamOf s j) ∧ t.pending = s.pending

/-- The table of 60_exceptions R124: which operation can answer which condition; an `OutOfRange`
reports the operation's own address (R120). -/
def mayAnswer : Instr → Condition → Bool
  | .buswr a _, c => decide (c = .ok ∨ c = .outOfRange a)
  | .busrd a, c => decide (c = .ok ∨ c = .outOfRange a)
  | .wrc _, c => decide (c = .ok)
  | .rdc, c => decide (c = .ok)
  | .size, c => decide (c = .ok)
  | .status _, c => decide (c = .ok ∨ c = .displayOverflow)
  | .error _, c => decide (c = .ok)
  | .toggle, c => decide (c = .ok)
  | .checkpoint _, c => decide (c = .ok)
  | .restore _, c => decide (c = .ok ∨ c = .corruptCheckpoint)
  | .begin, c => decide (c = .ok)

/-- Whether an operation returns a value when it answers `OK` (30_encoding R71): a byte for the two
reads, a number for `SIZE`, nothing otherwise; and nothing with any other condition. -/
def valueFits : Instr → Condition → Option Value → Prop
  | .busrd _, .ok, v => ∃ b, v = some (.byte b)
  | .rdc, .ok, v => ∃ b, v = some (.byte b)
  | .size, .ok, v => v = some (.number 2048)
  | _, _, v => v = none

/-- A source from which `RESTORE` succeeds, by the record's table of fields (43_checkpoint R111): at
least `CKPT_LEN` bytes, version 0x01, size 2048 (bytes 0x00, 0x08), mode 0x00 or 0x01, cursor word
below 2048 (its high byte below 0x08). -/
def ValidSource (src : List Byte) : Prop :=
  Config.ckptLen ≤ src.length ∧ src[0]? = some 0x01#8 ∧ src[1]? = some 0x00#8 ∧
    src[2]? = some 0x08#8 ∧ (src[3]? = some 0x00#8 ∨ src[3]? = some 0x01#8) ∧
    ∃ hi, src[5]? = some hi ∧ hi.toNat < 8

/-- How many bytes a `RESTORE` reads from a source (43_checkpoint R113): up to and including the field of
the first check that fails, all 2054 when only the cells can fail or none does. A source that ends
sooner loses what it has. -/
def restoreReads (src : List Byte) : Nat :=
  if src[0]? ≠ some 0x01#8 then 1
  else if src[1]? ≠ some 0x00#8 ∨ src[2]? ≠ some 0x08#8 then 3
  else if src[3]? ≠ some 0x00#8 ∧ src[3]? ≠ some 0x01#8 then 4
  else if src[5]?.all (fun hi => decide (8 ≤ hi.toNat)) then 6
  else Config.ckptLen

/-- The agents conform (30_encoding R70): no presentation they have issued is reserved. A conforming run is
a safe one: it never stops, whatever conditions are answered (60_exceptions R128). -/
def Conforming (s : State) : Prop := ∀ r ∈ s.pending, ∃ i, decode r = .ok i

end Sys2Proof.Safety
end

