-- ==== Sys2Proof/Certificates/Slice0/Obligations.lean ====
section
/-! DEFINITION. What the provers are to prove of the model, each from a rule of the spec. -/

open Sys2Proof Sys2Proof.Machine Sys2Proof.Safety

/-! ### Launch, the invariant, the step -/

/-- 10_state R30: DoubleSize, nothing pending, buffer and cursor free; then `BEGIN` gives
`BlankState(true)`. It holds of every launch state, so it rests on no chosen reset value. -/
def Obligations.LaunchIsDoubleSizeAndBeginBlanksIt : Prop :=
  (∀ b c, IsLaunch (State.launch b c) ∧ (State.launch b c).buffer = b ∧
    (State.launch b c).cursor = c) ∧
  IsLaunch State.reset ∧
  ∀ s, IsLaunch s → ∃ t, exec .begin s = .next t ∧ IsBlank true t ∧ Answered t .host .ok none

/-- The model's invariant holds at its reset state. -/
def Obligations.ResetMeetsTheInvariant : Prop := StateInv State.reset

/-- Every step, from every state that meets the invariant, keeps the buffer and the streams canonical
and every listed cell inside the cell space (10_state R22, R23). -/
def Obligations.EveryStepKeepsTheInvariant : Prop :=
  ∀ s t, StateInv s → step s = .next t → StateInv t

/-- 00_scope R13, 10_state R21: one step executes the earliest operation issued, whole. -/
def Obligations.StepRunsTheDecodedOperation : Prop :=
  ∀ s r rest i, s.pending = r :: rest → decode r = .ok i →
    step s = exec i { s with pending := rest }

/-- 00_scope R12: the device takes no step of its own. That an idle step answers the same state is the
model's choice (log entry 5). -/
def Obligations.StepIsIdleWithNothingIssued : Prop :=
  ∀ s, s.pending = [] → step s = .next s

/-- 30_encoding R70, 60_exceptions R128: while the agents conform, no number of steps faults or is refused. -/
def Obligations.ConformingRunsNeverStop : Prop :=
  ∀ k s, Conforming s → ∃ t, Sys2Proof.core.run k s = .next t ∧ Conforming t

/-- 00_scope R13, 10_state R21, 20_memory R51: the run of a list of issued operations is the operations
executed one after the other in issue order, none dropped, repeated or reordered. -/
def Obligations.RunExecutesTheIssuedOperationsInOrder : Prop :=
  ∀ (is : List Instr) (s : State), s.pending = is.map encode →
    ∃ t, Sys2Proof.core.run is.length s = .next t ∧ t.pending = [] ∧
      execList is { s with pending := [] } = .next t

/-- 30_encoding R69, R70: exactly the reserved words and codes are refused as reserved, for every
operand. -/
def Obligations.ReservedEncodingsAreRefused : Prop :=
  (∀ s w rest, s.pending = .bus w :: rest →
    (step s = .refused (.reservedBusWord w) ↔
      (w.getLsbD 20 = false ∧ w.extractLsb' 8 11 ≠ 0#11) ∨
      (w.getLsbD 19 = false ∧ w.extractLsb' 0 8 ≠ 0#8))) ∧
  (∀ s c o rest, s.pending = .host c o :: rest →
    (step s = .refused (.reservedHostCode c) ↔ c.toNat = 0 ∨ 8 ≤ c.toNat))

/-! ### Encodings -/

/-- Decoding an encoded operation gives it back, every operand at every value; a well-formed one is
encoded as a word of its port (30_encoding R62 to R68). -/
def Obligations.DecodeOfEncodeIsTheOperation : Prop :=
  ∀ i, decode (encode i) = .ok i ∧
    (i.wellFormed = true → (∃ w, encode i = .bus w) ∨ ∃ c o, encode i = .host c o)

/-- Every word of a port has at most one meaning: the operation it decodes to encodes to that word. -/
def Obligations.EncodeOfDecodeIsThePortWord : Prop :=
  (∀ w i, decode (.bus w) = .ok i → encode i = .bus w ∧ i.wellFormed = true) ∧
  (∀ c o i, decode (.host c o) = .ok i → encode i = .host c o ∧ i.wellFormed = true)

/-- The table of 30_encoding R63: match and mask of each bus operation, its fields (R62, R66). -/
def Obligations.BusWordsFollowTheMatchAndMaskTable : Prop :=
  ∀ w : BusWord, decode (.bus w) =
    if w &&& 0x180000#21 = 0x180000#21 then
      .ok (.buswr (w.toNat / 256 % 2048) (BitVec.ofNat 8 w.toNat))
    else if w &&& 0x1800FF#21 = 0x100000#21 then .ok (.busrd (w.toNat / 256 % 2048))
    else if w &&& 0x1FFF00#21 = 0x080000#21 then .ok (.wrc (BitVec.ofNat 8 w.toNat))
    else if w &&& 0x1FFFFF#21 = 0x000000#21 then .ok .rdc
    else .error (.reservedBusWord w)

/-- The table of 30_encoding R65. -/
def Obligations.HostCodesFollowTheTable : Prop :=
  decode (.host 0x01#8 .absent) = .ok .size ∧
  (∀ t, decode (.host 0x02#8 (.text t)) = .ok (.status t)) ∧
  (∀ t, decode (.host 0x03#8 (.text t)) = .ok (.error t)) ∧
  decode (.host 0x04#8 .absent) = .ok .toggle ∧
  (∀ k, decode (.host 0x05#8 (.stream k)) = .ok (.checkpoint k)) ∧
  (∀ k, decode (.host 0x06#8 (.stream k)) = .ok (.restore k)) ∧
  decode (.host 0x07#8 .absent) = .ok .begin

/-- Words written out in 95_test_vectors, reserved ones among them. -/
def Obligations.WrittenOutWordsDecode : Prop :=
  decodeTableWord 24 0x180541 = some (.buswr 5 0x41#8) ∧
  decodeTableWord 24 0x100500 = some (.busrd 5) ∧
  decodeTableWord 24 0x080042 = some (.wrc 0x42#8) ∧
  decodeTableWord 24 0x000000 = some .rdc ∧
  decodeTableWord 24 0x100501 = none ∧
  decodeTableWord 24 0x080142 = none ∧
  decodeTableWord 8 0x04 = some .toggle ∧
  decodeTableWord 8 0x08 = none

/-! ### The bus contract -/

/-- 40_port_access R80, R34. -/
def Obligations.SizeAnswersTheCapacity : Prop :=
  decode (.host 0x01#8 .absent) = .ok .size ∧
  ∀ s, ∃ t, exec .size s = .next t ∧ Answered t .host .ok (some (.number 2048)) ∧
    SameDevice s t ∧ SameHostSide s t

/-- 40_port_access R81: encoding, effect, frame, and the range check first. -/
def Obligations.BuswrLatchesAndStores : Prop :=
  (∀ a d, a < 2048 →
    decode (.bus (BitVec.ofNat 21 (0x180000 + 256 * a + d.toNat))) = .ok (.buswr a d)) ∧
  (∀ a d s, a < 2048 → ∃ t, exec (.buswr a d) s = .next t ∧
    t.cursor.toNat = a ∧ readCell t a = d ∧ SameCellsOutside a 1 s t ∧
    t.doubleSize = s.doubleSize ∧ Answered t .bus .ok none ∧ SameHostSide s t) ∧
  (∀ a d s, 2048 ≤ a → ∃ t, exec (.buswr a d) s = .next t ∧
    SameDevice s t ∧ Answered t .bus (.outOfRange a) none ∧ SameHostSide s t)

/-- 40_port_access R82. -/
def Obligations.BusrdLatchesAndReads : Prop :=
  (∀ a, a < 2048 → decode (.bus (BitVec.ofNat 21 (0x100000 + 256 * a))) = .ok (.busrd a)) ∧
  (∀ a s, a < 2048 → ∃ t, exec (.busrd a) s = .next t ∧
    t.cursor.toNat = a ∧ SameCells s t ∧ t.doubleSize = s.doubleSize ∧
    Answered t .bus .ok (some (.byte (readCell s a))) ∧ SameHostSide s t) ∧
  (∀ a s, 2048 ≤ a → ∃ t, exec (.busrd a) s = .next t ∧
    SameDevice s t ∧ Answered t .bus (.outOfRange a) none ∧ SameHostSide s t)

/-- 40_port_access R83: the cursor is not advanced (10_state R25). -/
def Obligations.WrcStoresAtTheCursor : Prop :=
  (∀ d : Byte, decode (.bus (BitVec.ofNat 21 (0x080000 + d.toNat))) = .ok (.wrc d)) ∧
  ∀ d s, ∃ t, exec (.wrc d) s = .next t ∧
    readCell t s.cursor.toNat = d ∧ SameCellsOutside s.cursor.toNat 1 s t ∧
    t.cursor = s.cursor ∧ t.doubleSize = s.doubleSize ∧ Answered t .bus .ok none ∧
    SameHostSide s t

/-- 40_port_access R84: no side effect. -/
def Obligations.RdcReadsAtTheCursor : Prop :=
  decode (.bus 0x000000#21) = .ok .rdc ∧
  ∀ s, ∃ t, exec .rdc s = .next t ∧
    Answered t .bus .ok (some (.byte (readCell s s.cursor.toNat))) ∧
    SameDevice s t ∧ SameHostSide s t

/-- 60_exceptions R121, 30_encoding R64: `OutOfRange` is answered by exactly the latching operations with
an address outside the buffer, reporting it and changing nothing, and never by an operation that a
bus word encodes. -/
def Obligations.OutOfRangeArisesOnlyFromWiderAddresses : Prop :=
  (∀ i s t x v, exec i s = .next t →
    (Answered t i.port (.outOfRange x) v ↔
      2048 ≤ x ∧ v = none ∧ (i = .busrd x ∨ ∃ d, i = .buswr x d))) ∧
  (∀ i s t p x v, exec i s = .next t → Answered t p (.outOfRange x) v →
    SameDevice s t ∧ SameHostSide s t) ∧
  (∀ w i s t x v, decode (.bus w) = .ok i → exec i s = .next t →
    ¬ Answered t .bus (.outOfRange x) v)

/-- 40_port_access R85: latching is a cursor load and then the plain transfer; write-then-read in all
four pairings; a write changes no other cell. -/
def Obligations.LatchingIsALoadThenATransfer : Prop :=
  ∀ a d s, a < 2048 →
    exec (.buswr a d) s = exec (.wrc d) (loadCursor (BitVec.ofNat 11 a) s) ∧
    exec (.busrd a) s = exec .rdc (loadCursor (BitVec.ofNat 11 a) s) ∧
    (∃ t, execList [.buswr a d, .busrd a] s = .next t ∧ Answered t .bus .ok (some (.byte d))) ∧
    (∃ t, execList [.buswr a d, .rdc] s = .next t ∧ Answered t .bus .ok (some (.byte d))) ∧
    (s.cursor.toNat = a →
      (∃ t, execList [.wrc d, .rdc] s = .next t ∧ Answered t .bus .ok (some (.byte d))) ∧
      (∃ t, execList [.wrc d, .busrd a] s = .next t ∧ Answered t .bus .ok (some (.byte d)))) ∧
    ∀ b, b < 2048 → b ≠ a → ∃ t, execList [.buswr a d, .busrd b] s = .next t ∧
      Answered t .bus .ok (some (.byte (readCell s b)))

/-! ### The reserved rows -/

/-- 41_text_lines R90: truncate, pad with `BLANK`, write nothing else. -/
def Obligations.WriteRowTruncatesAndPads : Prop :=
  ∀ base w text s,
    (∀ i, i < w → readCell (writeRow base w text s) (base + i) = text[i]?.getD Config.blank) ∧
    SameCellsOutside base w s (writeRow base w text s) ∧
    (writeRow base w text s).cursor = s.cursor ∧
    (writeRow base w text s).doubleSize = s.doubleSize

/-- 41_text_lines R91, 60_exceptions R123: the status row of the current mode is rewritten whole, and an
overflow is answered after the write. -/
def Obligations.StatusWritesTheStatusRow : Prop :=
  statusBase true = 960 ∧ cols true = 40 ∧ statusBase false = 1920 ∧ cols false = 80 ∧
  (∀ text, decode (.host 0x02#8 (.text text)) = .ok (.status text)) ∧
  ∀ text s, ∃ t, exec (.status text) s = .next t ∧
    (∀ i, i < cols s.doubleSize →
      readCell t (statusBase s.doubleSize + i) = text[i]?.getD Config.blank) ∧
    SameCellsOutside (statusBase s.doubleSize) (cols s.doubleSize) s t ∧
    t.cursor = s.cursor ∧ t.doubleSize = s.doubleSize ∧ SameHostSide s t ∧
    Answered t .host (if text.length > cols s.doubleSize then .displayOverflow else .ok) none

/-- 41_text_lines R92: the error row of the current mode, truncated silently, always `OK`. -/
def Obligations.ErrorWritesTheErrorRow : Prop :=
  errorBase true = 920 ∧ cols true = 40 ∧ errorBase false = 1840 ∧ cols false = 80 ∧
  (∀ text, decode (.host 0x03#8 (.text text)) = .ok (.error text)) ∧
  ∀ text s, ∃ t, exec (.error text) s = .next t ∧
    (∀ i, i < cols s.doubleSize →
      readCell t (errorBase s.doubleSize + i) = text[i]?.getD Config.blank) ∧
    SameCellsOutside (errorBase s.doubleSize) (cols s.doubleSize) s t ∧
    t.cursor = s.cursor ∧ t.doubleSize = s.doubleSize ∧ SameHostSide s t ∧
    Answered t .host .ok none

/-- 41_text_lines R93: until another write to the row, reads of its addresses return the text and the
padding; the row operations do not move the cursor. `u` is any later state in which the row is as the
operation left it. -/
def Obligations.RowTextReadsBack : Prop :=
  (∀ text s t u, exec (.status text) s = .next t →
    (∀ i, i < cols s.doubleSize →
      readCell u (statusBase s.doubleSize + i) = readCell t (statusBase s.doubleSize + i)) →
    t.cursor = s.cursor ∧
    ∀ i, i < cols s.doubleSize → ∃ v, exec (.busrd (statusBase s.doubleSize + i)) u = .next v ∧
      v.cursor.toNat = statusBase s.doubleSize + i ∧
      Answered v .bus .ok (some (.byte (text[i]?.getD Config.blank)))) ∧
  (∀ text s t u, exec (.error text) s = .next t →
    (∀ i, i < cols s.doubleSize →
      readCell u (errorBase s.doubleSize + i) = readCell t (errorBase s.doubleSize + i)) →
    t.cursor = s.cursor ∧
    ∀ i, i < cols s.doubleSize → ∃ v, exec (.busrd (errorBase s.doubleSize + i)) u = .next v ∧
      v.cursor.toNat = errorBase s.doubleSize + i ∧
      Answered v .bus .ok (some (.byte (text[i]?.getD Config.blank))))

/-- 41_text_lines R91, R92 (corner cases): each row operation is idempotent, and the two rows are
independent: in either order they leave the same buffer. -/
def Obligations.RowOperationsAreIdempotentAndIndependent : Prop :=
  ∀ text text' s, StateInv s →
    execList [.status text, .status text] s = exec (.status text) s ∧
    execList [.error text, .error text] s = exec (.error text) s ∧
    ∃ t u, execList [.status text, .error text'] s = .next t ∧
      execList [.error text', .status text] s = .next u ∧ SameDevice t u

/-! ### Mode and initialization -/

/-- 42_mode_and_init R101, R102: from any state, `BlankState` of the other mode. -/
def Obligations.ToggleGivesTheBlankStateOfTheOtherMode : Prop :=
  decode (.host 0x04#8 .absent) = .ok .toggle ∧
  ∀ s, ∃ t, exec .toggle s = .next t ∧ IsBlank (!s.doubleSize) t ∧
    Answered t .host .ok none ∧ SameHostSide s t

/-- 42_mode_and_init R103: two toggles keep the mode and leave it blank; from a blank state they change
nothing. -/
def Obligations.TwoTogglesKeepTheModeAndBlank : Prop :=
  (∀ s, ∃ t, execList [.toggle, .toggle] s = .next t ∧ IsBlank s.doubleSize t) ∧
  ∀ m s, StateInv s → IsBlank m s → ∃ t, execList [.toggle, .toggle] s = .next t ∧ SameDevice s t

/-- 42_mode_and_init R104: all cells `BLANK`, cursor 0, the mode kept. -/
def Obligations.BeginBlanksAndKeepsTheMode : Prop :=
  decode (.host 0x07#8 .absent) = .ok .begin ∧
  ∀ s, ∃ t, exec .begin s = .next t ∧ IsBlank s.doubleSize t ∧
    Answered t .host .ok none ∧ SameHostSide s t

/-- 42_mode_and_init R105: idempotence and the related identities, of whole states. -/
def Obligations.BeginIsIdempotentAndAbsorbedByToggle : Prop :=
  ∀ s, execList [.begin, .begin] s = exec .begin s ∧
    (∃ t, exec .begin s = .next t ∧ IsBlank s.doubleSize t) ∧
    exec .toggle s = exec .begin { s with doubleSize := !s.doubleSize } ∧
    execList [.begin, .toggle] s = exec .toggle s ∧
    execList [.toggle, .begin] s = exec .toggle s

/-! ### Checkpoint and restore -/

/-- 43_checkpoint R110, R111: the 2054 bytes of the record, field by field, after what the sink holds. -/
def Obligations.CheckpointAppendsTheRecord : Prop :=
  (∀ k, decode (.host 0x05#8 (.stream k)) = .ok (.checkpoint k)) ∧
  ∀ k s, ∃ t rec, exec (.checkpoint k) s = .next t ∧
    streamOf t k = streamOf s k ++ rec ∧ rec.length = 2054 ∧
    rec[0]? = some 0x01#8 ∧ rec[1]? = some 0x00#8 ∧ rec[2]? = some 0x08#8 ∧
    rec[3]? = some (if s.doubleSize then 0x01#8 else 0x00#8) ∧
    rec[4]? = some (s.cursor.extractLsb' 0 8) ∧
    rec[5]? = some ((s.cursor.extractLsb' 8 3).setWidth 8) ∧
    (∀ i, i < 2048 → rec[6 + i]? = some (readCell s i)) ∧
    SameDevice s t ∧ SameHostSideBut k s t ∧ Answered t .host .ok none

/-- 43_checkpoint R112: a valid source is loaded whole; any other changes nothing of the device. -/
def Obligations.RestoreLoadsAValidRecordOrNothing : Prop :=
  (∀ k, decode (.host 0x06#8 (.stream k)) = .ok (.restore k)) ∧
  (∀ k s, ValidSource (streamOf s k) → ∃ t lo hi, exec (.restore k) s = .next t ∧
    (∀ i, i < 2048 → (streamOf s k)[6 + i]? = some (readCell t i)) ∧
    (streamOf s k)[4]? = some lo ∧ (streamOf s k)[5]? = some hi ∧
    t.cursor.toNat = lo.toNat + 256 * hi.toNat ∧
    (t.doubleSize = true ↔ (streamOf s k)[3]? = some 0x01#8) ∧
    streamOf t k = (streamOf s k).drop 2054 ∧
    SameHostSideBut k s t ∧ Answered t .host .ok none) ∧
  (∀ k s, ¬ ValidSource (streamOf s k) → ∃ t, exec (.restore k) s = .next t ∧
    SameDevice s t ∧ SameHostSideBut k s t ∧ Answered t .host .corruptCheckpoint none)

/-- 43_checkpoint R113: the source loses exactly the bytes read up to the first check that fails. -/
def Obligations.RestoreConsumesUpToTheFirstFailingCheck : Prop :=
  ∀ k s, ∃ t, exec (.restore k) s = .next t ∧
    streamOf t k = (streamOf s k).drop (restoreReads (streamOf s k))

/-- 43_checkpoint R114: a checkpoint taken in any state, restored in any state, gives the first state;
and a restored record is what the next checkpoint writes. -/
def Obligations.CheckpointThenRestoreReproducesTheState : Prop :=
  (∀ s k s1 t j, StateInv s → streamOf s k = [] → exec (.checkpoint k) s = .next s1 →
    streamOf t j = streamOf s1 k →
    ∃ u, exec (.restore j) t = .next u ∧ SameDevice s u ∧ Answered u .host .ok none ∧
      streamOf u j = []) ∧
  (∀ s k j t, ValidSource (streamOf s k) → (streamOf s k).length = 2054 →
    exec (.restore k) s = .next t → streamOf t j = [] →
    ∃ u, exec (.checkpoint j) t = .next u ∧ streamOf u j = streamOf s k)

/-- 43_checkpoint R115: truncated sources and unknown versions leave the device as it was and signal
`CorruptCheckpoint`, and so does every source that any check refuses; a changed cell byte, or a cursor
word changed to another below 2048, is not detected and is restored as given. -/
def Obligations.CorruptSourcesChangeNothing : Prop :=
  (∀ k s, (streamOf s k).length < 2054 ∨ (streamOf s k)[0]? ≠ some 0x01#8 ∨
      ¬ ValidSource (streamOf s k) →
    ∃ t, exec (.restore k) s = .next t ∧ SameDevice s t ∧
      Answered t .host .corruptCheckpoint none) ∧
  (∀ k s b i, ValidSource (streamOf s k) → i < 2048 →
    ∃ t, exec (.restore k) (putStream k ((streamOf s k).set (6 + i) b) s) = .next t ∧
      Answered t .host .ok none ∧ readCell t i = b) ∧
  (∀ k s lo hi, ValidSource (streamOf s k) → hi.toNat < 8 →
    ∃ t, exec (.restore k) (putStream k (((streamOf s k).set 4 lo).set 5 hi) s) = .next t ∧
      Answered t .host .ok none ∧ t.cursor.toNat = lo.toNat + 256 * hi.toNat)

/-! ### Rules over all operations -/

/-- 00_scope R13, 60_exceptions R125, R128: every operation, in every state, ends in a next state with an
answer at its own port; no condition is a fault. -/
def Obligations.EveryOperationCompletesWithAnAnswer : Prop :=
  ∀ i s, ∃ t c v, exec i s = .next t ∧ Answered t i.port c v ∧ t.pending = s.pending

/-- 60_exceptions R124, 30_encoding R71: the conditions and values each operation can answer. -/
def Obligations.AnswersFollowTheTable : Prop :=
  ∀ i s t p c v, exec i s = .next t → Answered t p c v →
    mayAnswer i c = true ∧ valueFits i c v

/-- 60_exceptions R120: the condition codes. -/
def Obligations.ConditionCodesAreTheTaxonomysOrder : Prop :=
  Condition.ok.code = 0#2 ∧ (∀ a, (Condition.outOfRange a).code = 1#2) ∧
  Condition.corruptCheckpoint.code = 2#2 ∧ Condition.displayOverflow.code = 3#2

/-- 10_state R29: no operation depends on what an earlier one answered, and no run of at least one
operation does. -/
def Obligations.NoOperationReadsThePastAnswer : Prop :=
  (∀ i s r, exec i { s with response := r } = exec i s) ∧
  ∀ k s r, s.pending ≠ [] →
    Sys2Proof.core.run (k + 1) { s with response := r } = Sys2Proof.core.run (k + 1) s

/-- 40_port_access R86, 60_exceptions R130, R131: what arrives at a port is an operation of that port, and
no bus operation changes the mode or a stream. -/
def Obligations.BusPortReachesOnlyCellsAndCursor : Prop :=
  (∀ r i, decode r = .ok i → i.port = r.port) ∧
  ∀ i s t, i.port = .bus → exec i s = .next t →
    t.doubleSize = s.doubleSize ∧ t.streams = s.streams

/-- 10_state R33, 40_port_access R81 (same in both modes): the bus port cannot tell the mode. -/
def Obligations.BusPortCannotTellTheMode : Prop :=
  ∀ i s t m, i.port = .bus → exec i s = .next t →
    exec i { s with doubleSize := m } = .next { t with doubleSize := m }

/-- 10_state R27: the mode changes by `TOGGLE`, always, and by a successful `RESTORE`, to the recorded
mode; by nothing else. -/
def Obligations.ModeChangesOnlyByToggleOrRestore : Prop :=
  (∀ s t, exec .toggle s = .next t → t.doubleSize = !s.doubleSize) ∧
  (∀ k s t, exec (.restore k) s = .next t →
    (Answered t .host .ok none ∧ (t.doubleSize = true ↔ (streamOf s k)[3]? = some 0x01#8)) ∨
    (Answered t .host .corruptCheckpoint none ∧ t.doubleSize = s.doubleSize)) ∧
  (∀ i s t, exec i s = .next t → i ≠ .toggle → (∀ k, i ≠ .restore k) →
    t.doubleSize = s.doubleSize)

/-- 10_state R24, R25, 70_reset_and_hazards R144: the cursor is only loaded whole, by the operations R24
names. -/
def Obligations.CursorIsOnlyLoadedWhole : Prop :=
  ∀ i s t, exec i s = .next t →
    t.cursor = s.cursor ∨
    (∃ a, a < 2048 ∧ (i = .busrd a ∨ ∃ d, i = .buswr a d) ∧ t.cursor.toNat = a) ∨
    ((i = .begin ∨ i = .toggle) ∧ t.cursor = Config.cursorInit) ∨
    (∃ k lo hi, i = .restore k ∧ Answered t .host .ok none ∧
      (streamOf s k)[4]? = some lo ∧ (streamOf s k)[5]? = some hi ∧
      t.cursor.toNat = lo.toNat + 256 * hi.toNat)

/-- 20_memory R47, 10_state R23: a cell keeps its byte but for the operations that write it. -/
def Obligations.OnlyNamedOperationsWriteACell : Prop :=
  ∀ i s t a, exec i s = .next t → readCell t a ≠ readCell s a →
    (∃ d, i = .buswr a d) ∨ (∃ d, i = .wrc d ∧ s.cursor.toNat = a) ∨
    (∃ text, i = .status text ∧ statusBase s.doubleSize ≤ a ∧
      a < statusBase s.doubleSize + cols s.doubleSize) ∨
    (∃ text, i = .error text ∧ errorBase s.doubleSize ≤ a ∧
      a < errorBase s.doubleSize + cols s.doubleSize) ∨
    i = .begin ∨ i = .toggle ∨ (∃ k, i = .restore k ∧ Answered t .host .ok none)

/-- 20_memory R46: reads change no cell and are repeatable; of them only `BUSRD` moves the cursor. -/
def Obligations.ReadsChangeNoCellAndRepeat : Prop :=
  (∀ i s t, (∃ a, i = .busrd a) ∨ i = .rdc ∨ i = .size ∨ (∃ k, i = .checkpoint k) →
    exec i s = .next t → SameCells s t ∧ t.doubleSize = s.doubleSize ∧
      ((∀ a, i ≠ .busrd a) → t.cursor = s.cursor)) ∧
  (∀ a s, execList [.busrd a, .busrd a] s = exec (.busrd a) s) ∧
  ∀ s, execList [.rdc, .rdc] s = exec .rdc s

/-! ### Beside the operations -/

/-- 20_memory R53, R48: `Screen(m, buffer)` has 25 rows of `COLS(m)` codes, cell `ROWBASE(m, r) + c` at
row `r`, column `c`; the off-screen cells are not shown. -/
def Obligations.ScreenShowsTheVisibleCells : Prop :=
  (∀ m b, (screen m b).length = 25) ∧
  (∀ m b r, r < 25 → ∃ row, (screen m b)[r]? = some row ∧ row.length = cols m ∧
    ∀ c, c < cols m → row[c]? = some (bufferRead b (rowBase m r + c))) ∧
  (∀ m b i v, visible m ≤ i → screen m (bufferWrite b i v) = screen m b)

/-- 30_encoding R73: `SETCUR` and `PUTS`. -/
def Obligations.PseudoOperationsSetTheCursorAndPutText : Prop :=
  (∀ a s, a < 2048 → ∃ t, execList (setcur a) s = .next t ∧ t.cursor.toNat = a ∧
    SameCells s t ∧ t.doubleSize = s.doubleSize ∧ SameHostSide s t) ∧
  (∀ a text, puts a text = none ↔ 2048 < a + text.length) ∧
  (∀ a text ops s, puts a text = some ops → ∃ t, execList ops s = .next t ∧
    (∀ i, i < text.length → text[i]? = some (readCell t (a + i))) ∧
    SameCellsOutside a text.length s t ∧ t.doubleSize = s.doubleSize ∧ SameHostSide s t ∧
    (text = [] → t = s) ∧ (text ≠ [] → t.cursor.toNat = a + text.length - 1))

/-- 20_memory R49: system address `DEV_BASE + a` reaches device address `a`, for every base. That the
window function answers none for any other system address is DEDUCED from the host bus's range check
before dispatch (00_scope R14, R49): the model's, log entry 9. -/
def Obligations.WindowIsTheIdentityFromDevBase : Prop :=
  (∀ a, a < 2048 → windowOffset (Config.devBase + a) = some a) ∧
  ∀ x, x < Config.devBase ∨ Config.devBase + 2048 ≤ x → windowOffset x = none

/-- 00_scope R5: the parameters' values and constraints. -/
def Obligations.ParametersMeetTheirConstraints : Prop :=
  Config.bufSize = 2048 ∧ Config.cellBits = 8 ∧ 2 ^ Config.addrBits = Config.bufSize ∧
  Config.addrBits = 11 ∧ Config.colsDouble = 40 ∧ Config.colsNormal = 80 ∧ Config.rows = 25 ∧
  2 ≤ Config.rows ∧ Config.rows * Config.colsNormal ≤ Config.bufSize ∧
  Config.statusRow = 24 ∧ Config.errorRow = 23 ∧ Config.statusRow < Config.rows ∧
  Config.errorRow < Config.rows ∧ Config.errorRow ≠ Config.statusRow ∧
  Config.blank = 0x20#8 ∧ Config.cursorInit = 0#11 ∧ Config.resetMode = true ∧
  Config.ckptVersion = 0x01#8 ∧ Config.ckptLen = 1 + 2 + 1 + 2 + 2048 ∧
  le16Bytes 0x0807 = [0x07#8, 0x08#8]

/-- 00_scope R10: the geometry functions. -/
def Obligations.GeometryFollowsTheMode : Prop :=
  cols true = 40 ∧ cols false = 80 ∧ (∀ m r, rowBase m r = r * cols m) ∧
  statusBase true = 960 ∧ statusBase false = 1920 ∧
  errorBase true = 920 ∧ errorBase false = 1840 ∧
  visible true = 1000 ∧ visible false = 2000
end

