-- ==== Sys2Proof/Laws/State.lean ====
section
/-! SUPPORT. One lemma per field per update of the state, each true by unfolding. -/

namespace Sys2Proof.Machine

@[simp] theorem writeCell_buffer (i : Nat) (v : Byte) (s : State) :
    (writeCell i v s).buffer = bufferWrite s.buffer i v := rfl
@[simp] theorem writeCell_cursor (i : Nat) (v : Byte) (s : State) :
    (writeCell i v s).cursor = s.cursor := rfl
@[simp] theorem writeCell_doubleSize (i : Nat) (v : Byte) (s : State) :
    (writeCell i v s).doubleSize = s.doubleSize := rfl
@[simp] theorem writeCell_response (i : Nat) (v : Byte) (s : State) :
    (writeCell i v s).response = s.response := rfl
@[simp] theorem writeCell_streams (i : Nat) (v : Byte) (s : State) :
    (writeCell i v s).streams = s.streams := rfl
@[simp] theorem writeCell_pending (i : Nat) (v : Byte) (s : State) :
    (writeCell i v s).pending = s.pending := rfl

@[simp] theorem writeAllCells_buffer (bytes : List Byte) (s : State) :
    (writeAllCells bytes s).buffer = bufferOfBytesFrom 0 bytes := rfl
@[simp] theorem writeAllCells_cursor (bytes : List Byte) (s : State) :
    (writeAllCells bytes s).cursor = s.cursor := rfl
@[simp] theorem writeAllCells_doubleSize (bytes : List Byte) (s : State) :
    (writeAllCells bytes s).doubleSize = s.doubleSize := rfl
@[simp] theorem writeAllCells_response (bytes : List Byte) (s : State) :
    (writeAllCells bytes s).response = s.response := rfl
@[simp] theorem writeAllCells_streams (bytes : List Byte) (s : State) :
    (writeAllCells bytes s).streams = s.streams := rfl
@[simp] theorem writeAllCells_pending (bytes : List Byte) (s : State) :
    (writeAllCells bytes s).pending = s.pending := rfl

@[simp] theorem loadCursor_buffer (a : Addr) (s : State) :
    (loadCursor a s).buffer = s.buffer := rfl
@[simp] theorem loadCursor_cursor (a : Addr) (s : State) :
    (loadCursor a s).cursor = a := rfl
@[simp] theorem loadCursor_doubleSize (a : Addr) (s : State) :
    (loadCursor a s).doubleSize = s.doubleSize := rfl
@[simp] theorem loadCursor_response (a : Addr) (s : State) :
    (loadCursor a s).response = s.response := rfl
@[simp] theorem loadCursor_streams (a : Addr) (s : State) :
    (loadCursor a s).streams = s.streams := rfl
@[simp] theorem loadCursor_pending (a : Addr) (s : State) :
    (loadCursor a s).pending = s.pending := rfl

@[simp] theorem storeAtCursor_buffer (d : Byte) (s : State) :
    (storeAtCursor d s).buffer = bufferWrite s.buffer s.cursor.toNat d := rfl
@[simp] theorem storeAtCursor_cursor (d : Byte) (s : State) :
    (storeAtCursor d s).cursor = s.cursor := rfl
@[simp] theorem storeAtCursor_doubleSize (d : Byte) (s : State) :
    (storeAtCursor d s).doubleSize = s.doubleSize := rfl
@[simp] theorem storeAtCursor_response (d : Byte) (s : State) :
    (storeAtCursor d s).response = s.response := rfl
@[simp] theorem storeAtCursor_streams (d : Byte) (s : State) :
    (storeAtCursor d s).streams = s.streams := rfl
@[simp] theorem storeAtCursor_pending (d : Byte) (s : State) :
    (storeAtCursor d s).pending = s.pending := rfl

@[simp] theorem answer_buffer (p : Port) (c : Condition) (v : Option Value) (s : State) :
    (answer p c v s).buffer = s.buffer := rfl
@[simp] theorem answer_cursor (p : Port) (c : Condition) (v : Option Value) (s : State) :
    (answer p c v s).cursor = s.cursor := rfl
@[simp] theorem answer_doubleSize (p : Port) (c : Condition) (v : Option Value) (s : State) :
    (answer p c v s).doubleSize = s.doubleSize := rfl
@[simp] theorem answer_response (p : Port) (c : Condition) (v : Option Value) (s : State) :
    (answer p c v s).response = some { port := p, cond := c, value := v } := rfl
@[simp] theorem answer_streams (p : Port) (c : Condition) (v : Option Value) (s : State) :
    (answer p c v s).streams = s.streams := rfl
@[simp] theorem answer_pending (p : Port) (c : Condition) (v : Option Value) (s : State) :
    (answer p c v s).pending = s.pending := rfl

@[simp] theorem answerOk_buffer (p : Port) (v : Option Value) (s : State) :
    (answerOk p v s).buffer = s.buffer := rfl
@[simp] theorem answerOk_cursor (p : Port) (v : Option Value) (s : State) :
    (answerOk p v s).cursor = s.cursor := rfl
@[simp] theorem answerOk_doubleSize (p : Port) (v : Option Value) (s : State) :
    (answerOk p v s).doubleSize = s.doubleSize := rfl
@[simp] theorem answerOk_response (p : Port) (v : Option Value) (s : State) :
    (answerOk p v s).response = some { port := p, cond := .ok, value := v } := rfl
@[simp] theorem answerOk_streams (p : Port) (v : Option Value) (s : State) :
    (answerOk p v s).streams = s.streams := rfl
@[simp] theorem answerOk_pending (p : Port) (v : Option Value) (s : State) :
    (answerOk p v s).pending = s.pending := rfl

@[simp] theorem raise_buffer (p : Port) (c : Condition) (s : State) :
    (raise p c s).buffer = s.buffer := rfl
@[simp] theorem raise_cursor (p : Port) (c : Condition) (s : State) :
    (raise p c s).cursor = s.cursor := rfl
@[simp] theorem raise_doubleSize (p : Port) (c : Condition) (s : State) :
    (raise p c s).doubleSize = s.doubleSize := rfl
@[simp] theorem raise_response (p : Port) (c : Condition) (s : State) :
    (raise p c s).response = some { port := p, cond := c, value := none } := rfl
@[simp] theorem raise_streams (p : Port) (c : Condition) (s : State) :
    (raise p c s).streams = s.streams := rfl
@[simp] theorem raise_pending (p : Port) (c : Condition) (s : State) :
    (raise p c s).pending = s.pending := rfl

@[simp] theorem writeRow_buffer (base w : Nat) (text : List Byte) (s : State) :
    (writeRow base w text s).buffer = bufferWriteFrom s.buffer base (rowBytes w text) := rfl
@[simp] theorem writeRow_cursor (base w : Nat) (text : List Byte) (s : State) :
    (writeRow base w text s).cursor = s.cursor := rfl
@[simp] theorem writeRow_doubleSize (base w : Nat) (text : List Byte) (s : State) :
    (writeRow base w text s).doubleSize = s.doubleSize := rfl
@[simp] theorem writeRow_response (base w : Nat) (text : List Byte) (s : State) :
    (writeRow base w text s).response = s.response := rfl
@[simp] theorem writeRow_streams (base w : Nat) (text : List Byte) (s : State) :
    (writeRow base w text s).streams = s.streams := rfl
@[simp] theorem writeRow_pending (base w : Nat) (text : List Byte) (s : State) :
    (writeRow base w text s).pending = s.pending := rfl

@[simp] theorem initBlank_buffer (s : State) :
    (initBlank s).buffer = blankBuffer := rfl
@[simp] theorem initBlank_cursor (s : State) :
    (initBlank s).cursor = Config.cursorInit := rfl
@[simp] theorem initBlank_doubleSize (s : State) :
    (initBlank s).doubleSize = s.doubleSize := rfl
@[simp] theorem initBlank_response (s : State) :
    (initBlank s).response = s.response := rfl
@[simp] theorem initBlank_streams (s : State) :
    (initBlank s).streams = s.streams := rfl
@[simp] theorem initBlank_pending (s : State) :
    (initBlank s).pending = s.pending := rfl

@[simp] theorem putStream_buffer (k : StreamId) (bytes : List Byte) (s : State) :
    (putStream k bytes s).buffer = s.buffer := rfl
@[simp] theorem putStream_cursor (k : StreamId) (bytes : List Byte) (s : State) :
    (putStream k bytes s).cursor = s.cursor := rfl
@[simp] theorem putStream_doubleSize (k : StreamId) (bytes : List Byte) (s : State) :
    (putStream k bytes s).doubleSize = s.doubleSize := rfl
@[simp] theorem putStream_response (k : StreamId) (bytes : List Byte) (s : State) :
    (putStream k bytes s).response = s.response := rfl
@[simp] theorem putStream_streams (k : StreamId) (bytes : List Byte) (s : State) :
    (putStream k bytes s).streams = tableWrite [] s.streams k bytes := rfl
@[simp] theorem putStream_pending (k : StreamId) (bytes : List Byte) (s : State) :
    (putStream k bytes s).pending = s.pending := rfl

@[simp] theorem setMode_buffer (m : Bool) (s : State) :
    (setMode m s).buffer = s.buffer := rfl
@[simp] theorem setMode_cursor (m : Bool) (s : State) :
    (setMode m s).cursor = s.cursor := rfl
@[simp] theorem setMode_doubleSize (m : Bool) (s : State) :
    (setMode m s).doubleSize = m := rfl
@[simp] theorem setMode_response (m : Bool) (s : State) :
    (setMode m s).response = s.response := rfl
@[simp] theorem setMode_streams (m : Bool) (s : State) :
    (setMode m s).streams = s.streams := rfl
@[simp] theorem setMode_pending (m : Bool) (s : State) :
    (setMode m s).pending = s.pending := rfl

@[simp] theorem flipMode_buffer (s : State) :
    (flipMode s).buffer = s.buffer := rfl
@[simp] theorem flipMode_cursor (s : State) :
    (flipMode s).cursor = s.cursor := rfl
@[simp] theorem flipMode_doubleSize (s : State) :
    (flipMode s).doubleSize = !s.doubleSize := rfl
@[simp] theorem flipMode_response (s : State) :
    (flipMode s).response = s.response := rfl
@[simp] theorem flipMode_streams (s : State) :
    (flipMode s).streams = s.streams := rfl
@[simp] theorem flipMode_pending (s : State) :
    (flipMode s).pending = s.pending := rfl

@[simp] theorem commit_buffer (g : Staged) (s : State) :
    (commit g s).buffer = bufferOfBytesFrom 0 g.cells := rfl
@[simp] theorem commit_cursor (g : Staged) (s : State) :
    (commit g s).cursor = g.cursor := rfl
@[simp] theorem commit_doubleSize (g : Staged) (s : State) :
    (commit g s).doubleSize = g.mode := rfl
@[simp] theorem commit_response (g : Staged) (s : State) :
    (commit g s).response = s.response := rfl
@[simp] theorem commit_streams (g : Staged) (s : State) :
    (commit g s).streams = s.streams := rfl
@[simp] theorem commit_pending (g : Staged) (s : State) :
    (commit g s).pending = s.pending := rfl

@[simp] theorem streamOf_writeCell (i : Nat) (v : Byte) (s : State) (j : StreamId) :
    streamOf (writeCell i v s) j = streamOf s j := rfl
@[simp] theorem streamOf_writeAllCells (bytes : List Byte) (s : State) (j : StreamId) :
    streamOf (writeAllCells bytes s) j = streamOf s j := rfl
@[simp] theorem readCell_loadCursor (a : Addr) (s : State) (j : Nat) :
    readCell (loadCursor a s) j = readCell s j := rfl
@[simp] theorem streamOf_loadCursor (a : Addr) (s : State) (j : StreamId) :
    streamOf (loadCursor a s) j = streamOf s j := rfl
@[simp] theorem streamOf_storeAtCursor (d : Byte) (s : State) (j : StreamId) :
    streamOf (storeAtCursor d s) j = streamOf s j := rfl
@[simp] theorem readCell_answer (p : Port) (c : Condition) (v : Option Value) (s : State) (j : Nat) :
    readCell (answer p c v s) j = readCell s j := rfl
@[simp] theorem streamOf_answer (p : Port) (c : Condition) (v : Option Value) (s : State) (j : StreamId) :
    streamOf (answer p c v s) j = streamOf s j := rfl
@[simp] theorem readCell_answerOk (p : Port) (v : Option Value) (s : State) (j : Nat) :
    readCell (answerOk p v s) j = readCell s j := rfl
@[simp] theorem streamOf_answerOk (p : Port) (v : Option Value) (s : State) (j : StreamId) :
    streamOf (answerOk p v s) j = streamOf s j := rfl
@[simp] theorem readCell_raise (p : Port) (c : Condition) (s : State) (j : Nat) :
    readCell (raise p c s) j = readCell s j := rfl
@[simp] theorem streamOf_raise (p : Port) (c : Condition) (s : State) (j : StreamId) :
    streamOf (raise p c s) j = streamOf s j := rfl
@[simp] theorem streamOf_writeRow (base w : Nat) (text : List Byte) (s : State) (j : StreamId) :
    streamOf (writeRow base w text s) j = streamOf s j := rfl
@[simp] theorem streamOf_initBlank (s : State) (j : StreamId) :
    streamOf (initBlank s) j = streamOf s j := rfl
@[simp] theorem readCell_putStream (k : StreamId) (bytes : List Byte) (s : State) (j : Nat) :
    readCell (putStream k bytes s) j = readCell s j := rfl
@[simp] theorem readCell_setMode (m : Bool) (s : State) (j : Nat) :
    readCell (setMode m s) j = readCell s j := rfl
@[simp] theorem streamOf_setMode (m : Bool) (s : State) (j : StreamId) :
    streamOf (setMode m s) j = streamOf s j := rfl
@[simp] theorem readCell_flipMode (s : State) (j : Nat) :
    readCell (flipMode s) j = readCell s j := rfl
@[simp] theorem streamOf_flipMode (s : State) (j : StreamId) :
    streamOf (flipMode s) j = streamOf s j := rfl
@[simp] theorem streamOf_commit (g : Staged) (s : State) (j : StreamId) :
    streamOf (commit g s) j = streamOf s j := rfl

end Sys2Proof.Machine
end

