-- ==== Sys2Proof/Laws/Table.lean ====
section
/-! SUPPORT. Tables: read after write, canonical form, and that canonical tables with equal reads are
equal. -/

namespace Sys2Proof.Machine

variable {β : Type}

theorem tableRead_erase_same (dflt : β) (t : List (Nat × β)) (a : Nat) :
    tableRead dflt (tableErase a t) a = dflt := by
  induction t with
  | nil => rfl
  | cons e rest ih =>
    obtain ⟨k, v⟩ := e
    by_cases h : k = a <;> simp [tableErase, tableRead, h, ih]

theorem tableRead_erase_other (dflt : β) (t : List (Nat × β)) {a b : Nat} (hab : b ≠ a) :
    tableRead dflt (tableErase a t) b = tableRead dflt t b := by
  induction t with
  | nil => rfl
  | cons e rest ih =>
    obtain ⟨k, v⟩ := e
    by_cases h : k = a
    · have hk : k ≠ b := fun hb => hab (hb ▸ h)
      simp [tableErase, tableRead, h, ih, Ne.symm hab]
    · simp [tableErase, tableRead, h, ih]

theorem tableRead_insert_other (dflt x : β) (t : List (Nat × β)) {a b : Nat} (hab : b ≠ a) :
    tableRead dflt (tableInsert a x t) b = tableRead dflt t b := by
  induction t with
  | nil => simp [tableInsert, tableRead, Ne.symm hab]
  | cons e rest ih =>
    obtain ⟨k, v⟩ := e
    by_cases h : a < k <;> simp [tableInsert, tableRead, h, ih, Ne.symm hab]

theorem tableRead_insert_erase_same (dflt x : β) (t : List (Nat × β)) (a : Nat) :
    tableRead dflt (tableInsert a x (tableErase a t)) a = x := by
  induction t with
  | nil => simp [tableErase, tableInsert, tableRead]
  | cons e rest ih =>
    obtain ⟨k, v⟩ := e
    by_cases h : k = a
    · simp [tableErase, h, ih]
    · by_cases hk : a < k <;> simp [tableErase, tableInsert, tableRead, h, hk, ih]

theorem tableRead_write_same [DecidableEq β] (dflt x : β) (t : List (Nat × β)) (a : Nat) :
    tableRead dflt (tableWrite dflt t a x) a = x := by
  unfold tableWrite
  split
  · rename_i h
    rw [tableRead_erase_same, h]
  · exact tableRead_insert_erase_same dflt x t a

theorem tableRead_write_other [DecidableEq β] (dflt x : β) (t : List (Nat × β)) {a b : Nat}
    (hab : b ≠ a) : tableRead dflt (tableWrite dflt t a x) b = tableRead dflt t b := by
  unfold tableWrite
  split
  · exact tableRead_erase_other dflt t hab
  · rw [tableRead_insert_other dflt x _ hab, tableRead_erase_other dflt t hab]

theorem tableSorted_cons [DecidableEq β] (dflt : β) (lo k : Nat) (v : β) (rest : List (Nat × β)) :
    tableSorted dflt lo ((k, v) :: rest) = true ↔
      lo ≤ k ∧ v ≠ dflt ∧ tableSorted dflt (k + 1) rest = true := by
  simp [tableSorted, and_assoc]

theorem tableSorted_mono [DecidableEq β] (dflt : β) {lo lo' : Nat} (hlo : lo' ≤ lo)
    {t : List (Nat × β)} (h : tableSorted dflt lo t = true) : tableSorted dflt lo' t = true := by
  cases t with
  | nil => rfl
  | cons e rest =>
    obtain ⟨k, v⟩ := e
    rw [tableSorted_cons] at h ⊢
    exact ⟨hlo.trans h.1, h.2⟩

theorem tableSorted_erase [DecidableEq β] (dflt : β) {lo : Nat} {t : List (Nat × β)} (a : Nat)
    (h : tableSorted dflt lo t = true) : tableSorted dflt lo (tableErase a t) = true := by
  induction t generalizing lo with
  | nil => rfl
  | cons e rest ih =>
    obtain ⟨k, v⟩ := e
    rw [tableSorted_cons] at h
    by_cases hk : k = a
    · simpa [tableErase, hk] using tableSorted_mono dflt (by omega) (ih h.2.2)
    · simpa only [tableErase, hk, if_false, tableSorted_cons] using ⟨h.1, h.2.1, ih h.2.2⟩

/-- An insertion of a value that is not the default at a key the table lacks. -/
theorem tableSorted_insert_erase [DecidableEq β] (dflt : β) {x : β} (hx : x ≠ dflt) {lo a : Nat}
    (hlo : lo ≤ a) {t : List (Nat × β)} (h : tableSorted dflt lo t = true) :
    tableSorted dflt lo (tableInsert a x (tableErase a t)) = true := by
  induction t generalizing lo with
  | nil => simp [tableErase, tableInsert, tableSorted, hlo, hx]
  | cons e rest ih =>
    obtain ⟨k, v⟩ := e
    rw [tableSorted_cons] at h
    by_cases hk : k = a
    · subst hk
      simpa [tableErase] using ih (lo := lo) hlo (tableSorted_mono dflt (by omega) h.2.2)
    · by_cases hak : a < k
      · have hrest := tableSorted_erase dflt a h.2.2
        simp only [tableErase, hk, if_false, tableInsert, hak, if_true, tableSorted_cons]
        exact ⟨hlo, hx, hak, h.2.1, hrest⟩
      · simp only [tableErase, hk, if_false, tableInsert, hak, tableSorted_cons]
        exact ⟨h.1, h.2.1, ih (by omega) h.2.2⟩

/-- A write keeps the canonical form. -/
theorem tableSorted_write [DecidableEq β] (dflt x : β) {lo a : Nat} (hlo : lo ≤ a)
    {t : List (Nat × β)} (h : tableSorted dflt lo t = true) :
    tableSorted dflt lo (tableWrite dflt t a x) = true := by
  unfold tableWrite
  split
  · exact tableSorted_erase dflt a h
  · exact tableSorted_insert_erase dflt ‹_› hlo h

theorem tableRead_below [DecidableEq β] (dflt : β) {lo : Nat} {t : List (Nat × β)}
    (h : tableSorted dflt lo t = true) {a : Nat} (ha : a < lo) : tableRead dflt t a = dflt := by
  induction t generalizing lo with
  | nil => rfl
  | cons e rest ih =>
    obtain ⟨k, v⟩ := e
    rw [tableSorted_cons] at h
    have hk : k ≠ a := by omega
    simpa [tableRead, hk] using ih h.2.2 (by omega)

/-- Equal canonical tables are equal data: two of them with the same reads are the same list. -/
theorem tableSorted_ext [DecidableEq β] (dflt : β) {lo lo' : Nat} {t u : List (Nat × β)}
    (ht : tableSorted dflt lo t = true) (hu : tableSorted dflt lo' u = true)
    (h : ∀ a, tableRead dflt t a = tableRead dflt u a) : t = u := by
  induction t generalizing lo lo' u with
  | nil =>
    cases u with
    | nil => rfl
    | cons e rest =>
      obtain ⟨k, v⟩ := e
      rw [tableSorted_cons] at hu
      exact absurd (by simpa [tableRead] using (h k).symm) hu.2.1
  | cons e rest ih =>
    obtain ⟨k, v⟩ := e
    rw [tableSorted_cons] at ht
    cases u with
    | nil => exact absurd (by simpa [tableRead] using h k) ht.2.1
    | cons e' rest' =>
      obtain ⟨k', v'⟩ := e'
      have hu' := hu
      rw [tableSorted_cons] at hu
      have hkk : k = k' := by
        rcases Nat.lt_trichotomy k k' with hlt | heq | hgt
        · have hne : k' ≠ k := by omega
          have := h k
          rw [show tableRead dflt ((k', v') :: rest') k = dflt by
            simpa [tableRead, hne] using tableRead_below dflt hu.2.2 (a := k) (by omega)] at this
          exact absurd (by simpa [tableRead] using this) ht.2.1
        · exact heq
        · have hne : k ≠ k' := by omega
          have := h k'
          rw [show tableRead dflt ((k, v) :: rest) k' = dflt by
            simpa [tableRead, hne] using tableRead_below dflt ht.2.2 (a := k') (by omega)] at this
          exact absurd (by simpa [tableRead] using this.symm) hu.2.1
      subst hkk
      have hv : v = v' := by simpa [tableRead] using h k
      subst hv
      have hrest : rest = rest' := ih ht.2.2 hu.2.2 fun a => by
        by_cases hak : k = a
        · subst hak
          rw [tableRead_below dflt ht.2.2 (Nat.lt_succ_self k),
            tableRead_below dflt hu.2.2 (Nat.lt_succ_self k)]
        · simpa [tableRead, hak] using h a
      rw [hrest]

end Sys2Proof.Machine
end

