-- ==== Sys2Proof/Laws/Buffer.lean ====
section
/-! SUPPORT. The buffer and the streams: read after write, frames, canonical form (spec 20_memory R47). -/

namespace Sys2Proof.Machine

theorem bufferRead_write_same (m : List Host.Cell) (a : Nat) (v : Byte) :
    bufferRead (bufferWrite m a v) a = v :=
  tableRead_write_same _ v m a

theorem bufferRead_write_other (m : List Host.Cell) {a b : Nat} (v : Byte) (h : b ≠ a) :
    bufferRead (bufferWrite m a v) b = bufferRead m b :=
  tableRead_write_other _ v m h

/-- A write of consecutive cells: those cells hold the bytes, every other cell what it held. -/
theorem bufferRead_writeFrom (m : List Host.Cell) (base : Nat) (bytes : List Byte) (i : Nat) :
    bufferRead (bufferWriteFrom m base bytes) i =
      if h : base ≤ i ∧ i - base < bytes.length then bytes[i - base]'h.2 else bufferRead m i := by
  induction bytes generalizing m base with
  | nil => simp [bufferWriteFrom]
  | cons v vs ih =>
    rw [bufferWriteFrom, ih]
    by_cases hi : i = base
    · subst hi
      simp [bufferRead_write_same]
    · rw [bufferRead_write_other _ _ hi]
      by_cases hlt : i < base
      · simp [show ¬ base ≤ i by omega, show ¬ base + 1 ≤ i by omega]
      · have hsub : i - base = (i - (base + 1)) + 1 := by omega
        by_cases hlen : i - (base + 1) < vs.length
        · rw [dif_pos ⟨by omega, hlen⟩, dif_pos ⟨by omega, by simp; omega⟩]
          simp [hsub]
        · rw [dif_neg (by omega), dif_neg (by simp; omega)]

/-- The listing of given bytes reads as those bytes, and as unlisted beside them. -/
theorem bufferRead_ofBytesFrom (base : Nat) (bytes : List Byte) (i : Nat) :
    bufferRead (bufferOfBytesFrom base bytes) i =
      if h : base ≤ i ∧ i - base < bytes.length then bytes[i - base]'h.2
      else Config.unwrittenCell := by
  induction bytes generalizing base with
  | nil => simp [bufferOfBytesFrom, bufferRead, tableRead]
  | cons v vs ih =>
    by_cases hi : i = base
    · subst hi
      by_cases hv : v = Config.unwrittenCell
      · simp [bufferOfBytesFrom, hv, ih]
      · simp [bufferOfBytesFrom, hv, bufferRead, tableRead]
    · have hstep : bufferRead (bufferOfBytesFrom base (v :: vs)) i =
          bufferRead (bufferOfBytesFrom (base + 1) vs) i := by
        by_cases hv : v = Config.unwrittenCell <;>
          simp [bufferOfBytesFrom, hv, bufferRead, tableRead, Ne.symm hi]
      rw [hstep, ih]
      by_cases hlt : i < base
      · simp [show ¬ base ≤ i by omega, show ¬ base + 1 ≤ i by omega]
      · have hsub : i - base = (i - (base + 1)) + 1 := by omega
        by_cases hlen : i - (base + 1) < vs.length
        · rw [dif_pos ⟨by omega, hlen⟩, dif_pos ⟨by omega, by simp; omega⟩]
          simp [hsub]
        · rw [dif_neg (by omega), dif_neg (by simp; omega)]

theorem bufferRead_replicate (n : Nat) (v : Byte) (i : Nat) (h : i < n) :
    bufferRead (bufferOfBytesFrom 0 (List.replicate n v)) i = v := by
  simp [bufferRead_ofBytesFrom, h]

theorem bufferRead_blankBuffer (i : Nat) (h : i < Config.bufSize) :
    bufferRead blankBuffer i = Config.blank := by
  unfold blankBuffer
  exact bufferRead_replicate Config.bufSize Config.blank i h

theorem bufferBytes_length (m : List Host.Cell) : (bufferBytes m).length = Config.bufSize := by
  simp [bufferBytes]

theorem bufferBytes_getElem (m : List Host.Cell) (i : Nat) (h : i < (bufferBytes m).length) :
    (bufferBytes m)[i] = bufferRead m i := by
  simp [bufferBytes]

/-! ### Canonical form -/

theorem mem_of_mem_erase {β : Type} {a : Nat} {t : List (Nat × β)} {e : Nat × β}
    (h : e ∈ tableErase a t) : e ∈ t := by
  induction t with
  | nil => exact h
  | cons e' rest ih =>
    obtain ⟨k, v⟩ := e'
    by_cases hk : k = a
    · simp only [tableErase, hk, if_true] at h
      exact List.mem_cons_of_mem _ (ih h)
    · simp only [tableErase, hk, if_false, List.mem_cons] at h
      exact List.mem_cons.2 (h.imp id ih)

theorem mem_of_mem_insert {β : Type} {a : Nat} {x : β} {t : List (Nat × β)} {e : Nat × β}
    (h : e ∈ tableInsert a x t) : e = (a, x) ∨ e ∈ t := by
  induction t with
  | nil => exact .inl (by simpa [tableInsert] using h)
  | cons e' rest ih =>
    obtain ⟨k, v⟩ := e'
    by_cases hk : a < k
    · simpa [tableInsert, hk] using h
    · simp only [tableInsert, hk, if_false, List.mem_cons] at h ⊢
      rcases h with h | h
      · exact .inr (.inl h)
      · exact (ih h).imp id .inr

theorem mem_of_mem_write {β : Type} [DecidableEq β] {dflt x : β} {a : Nat} {t : List (Nat × β)}
    {e : Nat × β} (h : e ∈ tableWrite dflt t a x) : e.1 = a ∨ e ∈ t := by
  unfold tableWrite at h
  split at h
  · exact .inr (mem_of_mem_erase h)
  · rcases mem_of_mem_insert h with rfl | h
    · exact .inl rfl
    · exact .inr (mem_of_mem_erase h)

theorem bufferWf_iff (m : List Host.Cell) : bufferWf m = true ↔
    tableSorted Config.unwrittenCell 0 m = true ∧ ∀ e ∈ m, e.1 < Config.bufSize := by
  simp [bufferWf]

theorem bufferWf_nil : bufferWf [] = true := rfl

theorem bufferWf_write {m : List Host.Cell} (h : bufferWf m = true) {a : Nat}
    (ha : a < Config.bufSize) (v : Byte) : bufferWf (bufferWrite m a v) = true := by
  rw [bufferWf_iff] at h ⊢
  refine ⟨tableSorted_write _ v (Nat.zero_le a) h.1, fun e he => ?_⟩
  rcases mem_of_mem_write he with hea | hem
  · exact hea ▸ ha
  · exact h.2 e hem

theorem bufferWf_writeFrom {m : List Host.Cell} (h : bufferWf m = true) (base : Nat)
    (bytes : List Byte) (hb : base + bytes.length ≤ Config.bufSize) :
    bufferWf (bufferWriteFrom m base bytes) = true := by
  induction bytes generalizing m base with
  | nil => exact h
  | cons v vs ih =>
    simp only [List.length_cons] at hb
    exact ih (bufferWf_write h (by omega) v) (base + 1) (by omega)

theorem tableSorted_ofBytesFrom (base : Nat) (bytes : List Byte) :
    tableSorted Config.unwrittenCell base (bufferOfBytesFrom base bytes) = true := by
  induction bytes generalizing base with
  | nil => rfl
  | cons v vs ih =>
    by_cases hv : v = Config.unwrittenCell
    · simpa [bufferOfBytesFrom, hv] using tableSorted_mono _ (Nat.le_succ base) (ih (base + 1))
    · simp only [bufferOfBytesFrom, hv, if_false, tableSorted_cons]
      exact ⟨le_refl _, hv, ih (base + 1)⟩

theorem mem_ofBytesFrom {base : Nat} {bytes : List Byte} {e : Host.Cell}
    (h : e ∈ bufferOfBytesFrom base bytes) : e.1 < base + bytes.length := by
  induction bytes generalizing base with
  | nil => simp [bufferOfBytesFrom] at h
  | cons v vs ih =>
    simp only [List.length_cons]
    by_cases hv : v = Config.unwrittenCell
    · have := ih (base := base + 1) (by simpa [bufferOfBytesFrom, hv] using h)
      omega
    · simp only [bufferOfBytesFrom, hv, if_false, List.mem_cons] at h
      rcases h with rfl | h
      · simp
      · have := ih h
        omega

theorem bufferWf_ofBytesFrom (bytes : List Byte) (h : bytes.length ≤ Config.bufSize) :
    bufferWf (bufferOfBytesFrom 0 bytes) = true := by
  rw [bufferWf_iff]
  refine ⟨tableSorted_ofBytesFrom 0 bytes, fun e he => ?_⟩
  have := mem_ofBytesFrom he
  omega

theorem bufferWf_blankBuffer : bufferWf blankBuffer = true := by
  unfold blankBuffer
  exact bufferWf_ofBytesFrom _ (le_of_eq List.length_replicate)

theorem bufferRead_outside {m : List Host.Cell} (h : bufferWf m = true) {i : Nat}
    (hi : Config.bufSize ≤ i) : bufferRead m i = Config.unwrittenCell := by
  rw [bufferWf_iff] at h
  have hm := h.2
  clear h
  induction m with
  | nil => rfl
  | cons e rest ih =>
    obtain ⟨k, v⟩ := e
    have hk : k ≠ i := by
      have := hm (k, v) (by simp)
      simp only at this
      omega
    simpa [bufferRead, tableRead, hk] using ih fun e he => hm e (by simp [he])

/-- Two canonical buffers that read the same in every cell of the cell space are equal. -/
theorem bufferWf_ext {m n : List Host.Cell} (hm : bufferWf m = true) (hn : bufferWf n = true)
    (h : ∀ i, i < Config.bufSize → bufferRead m i = bufferRead n i) : m = n := by
  refine tableSorted_ext _ ((bufferWf_iff m).1 hm).1 ((bufferWf_iff n).1 hn).1 fun i => ?_
  by_cases hi : i < Config.bufSize
  · exact h i hi
  · exact (bufferRead_outside hm (by omega)).trans (bufferRead_outside hn (by omega)).symm

/-! ### The streams -/

theorem streamOf_putStream_same (k : StreamId) (bytes : List Byte) (s : State) :
    streamOf (putStream k bytes s) k = bytes :=
  tableRead_write_same [] bytes s.streams k

theorem streamOf_putStream_other {j k : StreamId} (h : j ≠ k) (bytes : List Byte) (s : State) :
    streamOf (putStream k bytes s) j = streamOf s j :=
  tableRead_write_other [] bytes s.streams h

theorem streamsWf_put {s : State} (h : streamsWf s.streams = true) (k : StreamId)
    (bytes : List Byte) : streamsWf (putStream k bytes s).streams = true :=
  tableSorted_write [] bytes (Nat.zero_le k) h

end Sys2Proof.Machine
end

