-- ==== Sys2Proof/Laws/Decode.lean ====
section
/-! SUPPORT. What the decoder can answer: one case split for each port (spec 30_encoding R63, R65, R69). -/

namespace Sys2Proof

theorem decodeBus_cases (w : BusWord) :
    (busL w = true ∧ busW w = true ∧ decodeBus w = .ok (.buswr (busA w).toNat (busD w))) ∨
    (busL w = true ∧ busW w = false ∧ busD w = 0#8 ∧ decodeBus w = .ok (.busrd (busA w).toNat)) ∨
    (busL w = false ∧ busW w = true ∧ busA w = 0#11 ∧ decodeBus w = .ok (.wrc (busD w))) ∨
    (busL w = false ∧ busW w = false ∧ busA w = 0#11 ∧ busD w = 0#8 ∧ decodeBus w = .ok .rdc) ∨
    (((busL w = false ∧ busA w ≠ 0#11) ∨ (busW w = false ∧ busD w ≠ 0#8)) ∧
      decodeBus w = .error (.reservedBusWord w)) := by
  unfold decodeBus
  cases busL w <;> cases busW w <;> by_cases ha : busA w = 0#11 <;>
    by_cases hd : busD w = 0#8 <;> simp [ha, hd]

theorem toNat_busWord (l w : Bool) (a : Addr) (d : Byte) :
    (busWord l w a d).toNat =
      0x100000 * l.toNat + 0x080000 * w.toNat + 256 * a.toNat + d.toNat := by
  have ha := a.isLt
  have hd := d.isLt
  have hl := l.toNat_le
  have hw := w.toNat_le
  simp only [busWord, BitVec.toNat_ofNat]
  omega

/-- A word is the four fields in their places. -/
theorem toNat_fields (w : BusWord) :
    w.toNat = 0x100000 * (busL w).toNat + 0x080000 * (busW w).toNat + 256 * (busA w).toNat +
      (busD w).toNat := by
  have h := w.isLt
  simp only [busL, busW, busA, busD, BitVec.getLsbD, Nat.toNat_testBit, BitVec.extractLsb'_toNat,
    Nat.shiftRight_eq_div_pow]
  omega

/-- The word of a word's fields is that word. -/
theorem busWord_fields (w : BusWord) : busWord (busL w) (busW w) (busA w) (busD w) = w :=
  BitVec.eq_of_toNat_eq ((toNat_busWord _ _ _ _).trans (toNat_fields w).symm)

/-- The fields of a word are the fields it is made of. -/
theorem fields_busWord (l w : Bool) (a : Addr) (d : Byte) :
    busL (busWord l w a d) = l ∧ busW (busWord l w a d) = w ∧ busA (busWord l w a d) = a ∧
      busD (busWord l w a d) = d := by
  have h := (toNat_fields (busWord l w a d)).symm.trans (toNat_busWord l w a d)
  have ha := a.isLt
  have hd := d.isLt
  have ha' := (busA (busWord l w a d)).isLt
  have hd' := (busD (busWord l w a d)).isLt
  have key : (busL (busWord l w a d)).toNat = l.toNat ∧ (busW (busWord l w a d)).toNat = w.toNat ∧
      (busA (busWord l w a d)).toNat = a.toNat ∧ (busD (busWord l w a d)).toNat = d.toNat := by
    have hl := l.toNat_le
    have hw := w.toNat_le
    have hl' := (busL (busWord l w a d)).toNat_le
    have hw' := (busW (busWord l w a d)).toNat_le
    omega
  have inj : ∀ x y : Bool, x.toNat = y.toNat → x = y := by decide
  exact ⟨inj _ _ key.1, inj _ _ key.2.1, BitVec.toNat_inj.1 key.2.2.1,
    BitVec.toNat_inj.1 key.2.2.2⟩

/-- The command codes that are not reserved are 0x01 to 0x07. -/
theorem command_cases (c : Command) :
    c = 0x01#8 ∨ c = 0x02#8 ∨ c = 0x03#8 ∨ c = 0x04#8 ∨ c = 0x05#8 ∨ c = 0x06#8 ∨ c = 0x07#8 ∨
      c.toNat = 0 ∨ 8 ≤ c.toNat := by
  simp only [← BitVec.toNat_inj, BitVec.toNat_ofNat]
  omega

theorem decodeHost_reserved {c : Command} (h : c.toNat = 0 ∨ 8 ≤ c.toNat) (o : HostOperand) :
    decodeHost c o = .error (.reservedHostCode c) := by
  unfold decodeHost
  split <;> first | rfl | (exfalso; revert h; decide)

theorem commandAlone_cases (c : Command) (i : Instr) (o : HostOperand) :
    (o = .absent ∧ commandAlone c i o = .ok i) ∨
      commandAlone c i o = .error (.operandMismatch c) := by
  cases o <;> simp [commandAlone]

theorem commandWithText_cases (c : Command) (f : List Byte → Instr) (o : HostOperand) :
    (∃ t, o = .text t ∧ commandWithText c f o = .ok (f t)) ∨
      commandWithText c f o = .error (.operandMismatch c) := by
  cases o <;> simp [commandWithText]

theorem commandWithStream_cases (c : Command) (f : StreamId → Instr) (o : HostOperand) :
    (∃ k, o = .stream k ∧ commandWithStream c f o = .ok (f k)) ∨
      commandWithStream c f o = .error (.operandMismatch c) := by
  cases o <;> simp [commandWithStream]

/-- A host presentation is one of the seven commands, a command with another operand, or reserved. -/
theorem decodeHost_cases (c : Command) (o : HostOperand) :
    (∃ i, decodeHost c o = .ok i ∧ encode i = .host c o ∧ i.wellFormed = true ∧
      c.toNat ≠ 0 ∧ c.toNat < 8) ∨
    (decodeHost c o = .error (.operandMismatch c) ∧ c.toNat ≠ 0 ∧ c.toNat < 8) ∨
    (decodeHost c o = .error (.reservedHostCode c) ∧ (c.toNat = 0 ∨ 8 ≤ c.toNat)) := by
  rcases command_cases c with rfl | rfl | rfl | rfl | rfl | rfl | rfl | h
  all_goals try (cases o <;>
    simp [decodeHost, commandAlone, commandWithText, commandWithStream, encode, Instr.wellFormed]; done)
  exact .inr (.inr ⟨decodeHost_reserved h o, h⟩)

end Sys2Proof
end

