-- ==== Sys2Proof/Laws/Ops.lean ====
section
/-! SUPPORT. What each shared operation does, said once: the cells after it, its operands, the reads of
a record. -/

namespace Sys2Proof.Machine

/-! ### Cells -/

theorem readCell_writeCell_same (i : Nat) (v : Byte) (s : State) :
    readCell (writeCell i v s) i = v :=
  bufferRead_write_same s.buffer i v

theorem readCell_writeCell_other {i j : Nat} (h : j ≠ i) (v : Byte) (s : State) :
    readCell (writeCell i v s) j = readCell s j :=
  bufferRead_write_other s.buffer v h

theorem readCell_storeAtCursor_same (d : Byte) (s : State) :
    readCell (storeAtCursor d s) s.cursor.toNat = d :=
  readCell_writeCell_same _ d s

theorem readCell_storeAtCursor_other {j : Nat} (d : Byte) (s : State) (h : j ≠ s.cursor.toNat) :
    readCell (storeAtCursor d s) j = readCell s j :=
  readCell_writeCell_other h d s

theorem readCell_writeAllCells (bytes : List Byte) (s : State) (i : Nat) (h : i < bytes.length) :
    readCell (writeAllCells bytes s) i = bytes[i] := by
  simp [readCell, bufferRead_ofBytesFrom, h]

theorem readCell_initBlank (s : State) (i : Nat) (h : i < Config.bufSize) :
    readCell (initBlank s) i = Config.blank :=
  bufferRead_blankBuffer i h

theorem readCell_commit (g : Staged) (s : State) (i : Nat) (h : i < g.cells.length) :
    readCell (commit g s) i = g.cells[i] := by
  simp [readCell, bufferRead_ofBytesFrom, h]

/-! ### Row bytes -/

theorem rowBytes_length (w : Nat) (text : List Byte) : (rowBytes w text).length = w := by
  simp [rowBytes]
  omega

theorem rowBytes_getElem (w : Nat) (text : List Byte) (i : Nat) (h : i < (rowBytes w text).length) :
    (rowBytes w text)[i] = if hi : i < text.length then text[i] else Config.blank := by
  have hw : i < w := by simpa [rowBytes_length] using h
  by_cases hi : i < text.length
  · simp [rowBytes, hw, hi]
  · simp [rowBytes, List.getElem_append, hi]

/-! ### Operands -/

theorem addressOperand_of_lt {a : Nat} (h : a < Config.bufSize) :
    addressOperand a = some (BitVec.ofNat 11 a) := by
  simp [addressOperand, h]

theorem addressOperand_of_not_lt {a : Nat} (h : ¬ a < Config.bufSize) : addressOperand a = none := by
  simp [addressOperand, h]

theorem addressOperand_eq_some {a : Nat} {c : Addr} :
    addressOperand a = some c ↔ a < Config.bufSize ∧ c = BitVec.ofNat 11 a := by
  unfold addressOperand
  split <;> simp_all [eq_comm]

/-- A legal address is the cursor's value once latched, unchanged (R66). -/
theorem toNat_address {a : Nat} (h : a < Config.bufSize) : (BitVec.ofNat 11 a).toNat = a := by
  simpa [BitVec.toNat_ofNat] using Nat.mod_eq_of_lt (show a < 2 ^ 11 from h)

theorem cursor_lt (s : State) : s.cursor.toNat < Config.bufSize := s.cursor.isLt

/-! ### Geometry (R10) -/

theorem cols_le (m : Bool) : cols m ≤ 80 := by cases m <;> decide

theorem statusRow_fits (m : Bool) : statusBase m + cols m ≤ Config.bufSize := by
  cases m <;> decide

theorem errorRow_fits (m : Bool) : errorBase m + cols m ≤ Config.bufSize := by
  cases m <;> decide

theorem errorRow_before_statusRow (m : Bool) : errorBase m + cols m = statusBase m := by
  cases m <;> decide

/-! ### The reads of a record -/

theorem readField_none {α : Type} {k : Nat} {accept : List Byte → Option α} {source : List Byte}
    (h : (readField k accept source).1 = none) :
    source.length < k ∨ accept (source.take k) = none := by
  unfold readField streamRead at h
  simp only at h
  split at h
  · left
    simp_all
  · exact .inr h

theorem readField_some {α : Type} {k : Nat} {accept : List Byte → Option α} {source : List Byte}
    {x : α} (h : (readField k accept source).1 = some x) :
    k ≤ source.length ∧ accept (source.take k) = some x := by
  unfold readField streamRead at h
  simp only at h
  split at h
  · cases h
  · exact ⟨by simp_all, h⟩

theorem readField_rest {α : Type} (k : Nat) (accept : List Byte → Option α) (source : List Byte) :
    (readField k accept source).2 = source.drop k := rfl

/-- What `RESTORE` stages has a cell byte for every cell. -/
theorem readRecord_cells_length {source rest : List Byte} {g : Staged}
    (h : readRecord source = (some g, rest)) : g.cells.length = Config.bufSize := by
  unfold readRecord at h
  split at h
  · simp at h
  split at h
  · simp at h
  split at h
  · simp at h
  split at h
  · simp at h
  split at h
  · simp at h
  · rename_i cells tail heq
    have hcells := readField_some (congrArg Prod.fst heq)
    obtain ⟨rfl, rfl⟩ := Prod.mk.inj h |>.imp Option.some.inj id
    obtain rfl := Option.some.inj hcells.2
    simpa using hcells.1

end Sys2Proof.Machine
end

