-- ==== Sys2Proof/Laws/Record.lean ====
section
/-! SUPPORT. What the reads and checks of a record do, said once (spec 43_checkpoint R112, R113): a valid
source is staged field by field, any other is refused, and either way the reads are those of
`restoreReads`. -/

namespace Sys2Proof.Machine

open Sys2Proof.Safety

theorem sizeWord_iff (lo hi : Byte) :
    le16Value lo hi = Config.bufSize ↔ lo = 0x00#8 ∧ hi = 0x08#8 := by
  have := lo.isLt
  have := hi.isLt
  rw [← BitVec.toNat_inj, ← BitVec.toNat_inj]
  simp [le16Value, Config.bufSize]
  omega

theorem cursorWord_lt_iff (lo hi : Byte) : le16Value lo hi < Config.bufSize ↔ hi.toNat < 8 := by
  have := lo.isLt
  simp [le16Value, Config.bufSize]
  omega

theorem modeOfByte_none {b : Byte} (h : modeOfByte b = none) : b ≠ 0x00#8 ∧ b ≠ 0x01#8 := by
  unfold modeOfByte at h
  by_cases h0 : b = 0x00#8 <;> by_cases h1 : b = 0x01#8 <;> simp_all

theorem modeOfByte_some {b : Byte} {m : Bool} (h : modeOfByte b = some m) : b = modeByte m := by
  unfold modeOfByte at h
  by_cases h0 : b = 0x00#8 <;> by_cases h1 : b = 0x01#8 <;> simp_all [modeByte]

/-- What `readRecord` answers for a source: what is left is what R113 says; and either the source is
valid and every field is staged from its place, or it is not and nothing is. -/
theorem readRecord_spec (src : List Byte) :
    (readRecord src).2 = src.drop (restoreReads src) ∧
    ((ValidSource src ∧ ∃ g lo hi, (readRecord src).1 = some g ∧
        g.cells = (src.drop 6).take 2048 ∧ src[4]? = some lo ∧ src[5]? = some hi ∧
        le16Value lo hi < Config.bufSize ∧ g.cursor = BitVec.ofNat 11 (le16Value lo hi) ∧
        src[3]? = some (modeByte g.mode)) ∨
      (¬ ValidSource src ∧ (readRecord src).1 = none)) := by
  rcases src with _ | ⟨v, src⟩
  · simp [readRecord, readField, streamRead, restoreReads, ValidSource, Config.ckptLen]
  by_cases hv : v = 0x01#8
  swap
  · simp [readRecord, readField, streamRead, acceptVersion, Config.ckptVersion, hv, restoreReads,
      ValidSource]
  subst hv
  rcases src with _ | ⟨z, _ | ⟨z', src⟩⟩
  · simp [readRecord, readField, streamRead, acceptVersion, Config.ckptVersion, restoreReads,
      ValidSource, Config.ckptLen]
  · simp [readRecord, readField, streamRead, acceptVersion, Config.ckptVersion, restoreReads,
      ValidSource, Config.ckptLen]
  by_cases hz : z = 0x00#8 ∧ z' = 0x08#8
  swap
  · have hsize : ¬ le16Value z z' = Config.bufSize := fun h => hz ((sizeWord_iff z z').1 h)
    have hor : ¬ z = 0x00#8 ∨ ¬ z' = 0x08#8 := not_and_or.1 hz
    refine ⟨?_, .inr ⟨fun h => hz ⟨by simpa using h.2.2.1, by simpa using h.2.2.2.1⟩, ?_⟩⟩ <;>
      simp [readRecord, readField, streamRead, acceptVersion, Config.ckptVersion, acceptSize, hsize,
        restoreReads, hor]
  have hsize := (sizeWord_iff z z').2 hz
  obtain ⟨rfl, rfl⟩ := hz
  rcases src with _ | ⟨f, src⟩
  · simp [readRecord, readField, streamRead, acceptVersion, Config.ckptVersion, acceptSize, hsize,
      restoreReads, ValidSource, Config.ckptLen]
  cases hm : modeOfByte f with
  | none =>
    obtain ⟨h0, h1⟩ := modeOfByte_none hm
    simp [readRecord, readField, streamRead, acceptVersion, Config.ckptVersion, acceptSize, hsize,
      acceptMode, hm, restoreReads, ValidSource, h0, h1]
  | some m =>
    have hf := modeOfByte_some hm
    subst hf
    have hmode : modeByte m = 0x00#8 ∨ modeByte m = 0x01#8 := by cases m <;> simp [modeByte]
    have hmode' : ¬ (¬ modeByte m = 0x00#8 ∧ ¬ modeByte m = 0x01#8) := by tauto
    rcases src with _ | ⟨lo, _ | ⟨hi, src⟩⟩
    · simp [readRecord, readField, streamRead, acceptVersion, Config.ckptVersion, acceptSize, hsize,
        acceptMode, hm, restoreReads, ValidSource, hmode', Config.ckptLen]
    · simp [readRecord, readField, streamRead, acceptVersion, Config.ckptVersion, acceptSize, hsize,
        acceptMode, hm, restoreReads, ValidSource, hmode', Config.ckptLen]
    by_cases hhi : hi.toNat < 8
    swap
    · have hc := addressOperand_of_not_lt fun h => hhi ((cursorWord_lt_iff lo hi).1 h)
      simp [readRecord, readField, streamRead, acceptVersion, Config.ckptVersion, acceptSize, hsize,
        acceptMode, hm, acceptCursor, hc, restoreReads, ValidSource, hmode', hhi, not_lt.1 hhi]
    have hlt := (cursorWord_lt_iff lo hi).2 hhi
    have hc := addressOperand_of_lt hlt
    have hreads : restoreReads (0x01#8 :: 0x00#8 :: 0x08#8 :: modeByte m :: lo :: hi :: src) = 2054 := by
      simp [restoreReads, hmode', hhi, Config.ckptLen]
    by_cases hlen : src.length < Config.bufSize
    · have hshort : src.length < 2048 := hlen
      refine ⟨?_, .inr ⟨fun h => ?_, ?_⟩⟩
      · rw [hreads]
        simp [readRecord, readField, streamRead, acceptVersion, Config.ckptVersion, acceptSize,
          hsize, acceptMode, hm, acceptCursor, hc, hlen]
        rfl
      · have hl := h.1
        simp only [Config.ckptLen, List.length_cons] at hl
        omega
      · simp [readRecord, readField, streamRead, acceptVersion, Config.ckptVersion, acceptSize,
          hsize, acceptMode, hm, acceptCursor, hc, hlen]
    · have hlong : ¬ src.length < 2048 := hlen
      refine ⟨?_, .inl ⟨⟨?_, rfl, rfl, rfl, by simpa using hmode, hi, rfl, hhi⟩,
        ⟨m, BitVec.ofNat 11 (le16Value lo hi), src.take Config.bufSize⟩, lo, hi, ?_, rfl, rfl, rfl,
        hlt, rfl, rfl⟩⟩
      · rw [hreads]
        simp [readRecord, readField, streamRead, acceptVersion, Config.ckptVersion, acceptSize,
          hsize, acceptMode, hm, acceptCursor, hc, hlen, acceptCells]
        rfl
      · simp only [Config.ckptLen, List.length_cons]
        omega
      · simp [readRecord, readField, streamRead, acceptVersion, Config.ckptVersion, acceptSize,
          hsize, acceptMode, hm, acceptCursor, hc, hlen, acceptCells]

end Sys2Proof.Machine
end

