-- ==== Sys2Proof/Laws/Exec.lean ====
section
/-! SUPPORT. One equation per operation: what `exec` answers, over the shared operations. -/

namespace Sys2Proof.Machine

theorem exec_buswr {a : Nat} (h : a < Config.bufSize) (d : Byte) (s : State) :
    exec (.buswr a d) s =
      .next (answerOk .bus none (storeAtCursor d (loadCursor (BitVec.ofNat 11 a) s))) := by
  simp [exec, execBuswr, addressOperand_of_lt h]

theorem exec_buswr_outOfRange {a : Nat} (h : ¬ a < Config.bufSize) (d : Byte) (s : State) :
    exec (.buswr a d) s = .next (raise .bus (.outOfRange a) s) := by
  simp [exec, execBuswr, addressOperand_of_not_lt h]

theorem exec_busrd {a : Nat} (h : a < Config.bufSize) (s : State) :
    exec (.busrd a) s =
      .next (answerOk .bus (some (.byte (readCell s a))) (loadCursor (BitVec.ofNat 11 a) s)) := by
  simp [exec, execBusrd, addressOperand_of_lt h, fetchAtCursor, Nat.mod_eq_of_lt (show a < 2048 from h)]

theorem exec_busrd_outOfRange {a : Nat} (h : ¬ a < Config.bufSize) (s : State) :
    exec (.busrd a) s = .next (raise .bus (.outOfRange a) s) := by
  simp [exec, execBusrd, addressOperand_of_not_lt h]

theorem exec_wrc (d : Byte) (s : State) :
    exec (.wrc d) s = .next (answerOk .bus none (storeAtCursor d s)) := rfl

theorem exec_rdc (s : State) :
    exec .rdc s = .next (answerOk .bus (some (.byte (fetchAtCursor s))) s) := rfl

theorem exec_size (s : State) :
    exec .size s = .next (answerOk .host (some (.number Config.bufSize)) s) := rfl

theorem exec_status (text : List Byte) (s : State) :
    exec (.status text) s = .next (answer .host (statusCondition s.doubleSize text) none
      (writeRow (statusBase s.doubleSize) (cols s.doubleSize) text s)) := rfl

theorem exec_error (text : List Byte) (s : State) :
    exec (.error text) s = .next (answerOk .host none
      (writeRow (errorBase s.doubleSize) (cols s.doubleSize) text s)) := rfl

theorem exec_toggle (s : State) :
    exec .toggle s = .next (answerOk .host none (initBlank (flipMode s))) := rfl

theorem exec_begin (s : State) :
    exec .begin s = .next (answerOk .host none (initBlank s)) := rfl

theorem exec_checkpoint (sink : StreamId) (s : State) :
    exec (.checkpoint sink) s = .next (answerOk .host none
      (putStream sink (streamOf s sink ++ checkpointRecord s) s)) := rfl

/-- `RESTORE` either stages a whole record and commits it, or changes nothing of the device. -/
theorem exec_restore_cases (source : StreamId) (s : State) :
    (∃ rest, readRecord (streamOf s source) = (none, rest) ∧
      exec (.restore source) s =
        .next (raise .host .corruptCheckpoint (putStream source rest s))) ∨
    (∃ g rest, readRecord (streamOf s source) = (some g, rest) ∧
      exec (.restore source) s = .next (answerOk .host none (commit g (putStream source rest s)))) := by
  cases h : readRecord (streamOf s source) with
  | mk staged rest =>
    cases staged with
    | none => exact .inl ⟨rest, rfl, by simp [exec, execRestore, h]⟩
    | some g => exact .inr ⟨g, rest, rfl, by simp [exec, execRestore, h]⟩

/-- `RESTORE` from a valid source: every field staged from its place and committed. -/
theorem exec_restore_valid {source : StreamId} {s : State}
    (h : Safety.ValidSource (streamOf s source)) :
    ∃ g lo hi, exec (.restore source) s = .next (answerOk .host none (commit g
        (putStream source ((streamOf s source).drop (Safety.restoreReads (streamOf s source))) s))) ∧
      g.cells = ((streamOf s source).drop 6).take 2048 ∧
      (streamOf s source)[4]? = some lo ∧ (streamOf s source)[5]? = some hi ∧
      le16Value lo hi < Config.bufSize ∧ g.cursor = BitVec.ofNat 11 (le16Value lo hi) ∧
      (streamOf s source)[3]? = some (modeByte g.mode) := by
  obtain ⟨hrest, ⟨-, g, lo, hi, hg, hfields⟩ | ⟨hn, -⟩⟩ := readRecord_spec (streamOf s source)
  · have hr : readRecord (streamOf s source) = (some g, _) := Prod.ext hg hrest
    exact ⟨g, lo, hi, by simp [exec, execRestore, hr], hfields⟩
  · exact absurd h hn

/-- `RESTORE` from any other source: nothing of the device changes. -/
theorem exec_restore_invalid {source : StreamId} {s : State}
    (h : ¬ Safety.ValidSource (streamOf s source)) :
    exec (.restore source) s = .next (raise .host .corruptCheckpoint
      (putStream source ((streamOf s source).drop (Safety.restoreReads (streamOf s source))) s)) := by
  obtain ⟨hrest, ⟨hv, -⟩ | ⟨-, hg⟩⟩ := readRecord_spec (streamOf s source)
  · exact absurd hv h
  · have hr : readRecord (streamOf s source) = (none, _) := Prod.ext hg hrest
    simp [exec, execRestore, hr]

/-- Every next state `exec` can answer, one case a form: a fact about an operation and the states before
and after it holds of all of them if it holds in these cases. -/
theorem exec_inversion {P : Instr → State → State → Prop}
    (buswr : ∀ a d s, a < Config.bufSize → P (.buswr a d) s
      (answerOk .bus none (storeAtCursor d (loadCursor (BitVec.ofNat 11 a) s))))
    (buswrOutOfRange : ∀ a d s, ¬ a < Config.bufSize →
      P (.buswr a d) s (raise .bus (.outOfRange a) s))
    (busrd : ∀ a s, a < Config.bufSize → P (.busrd a) s
      (answerOk .bus (some (.byte (readCell s a))) (loadCursor (BitVec.ofNat 11 a) s)))
    (busrdOutOfRange : ∀ a s, ¬ a < Config.bufSize →
      P (.busrd a) s (raise .bus (.outOfRange a) s))
    (wrc : ∀ d s, P (.wrc d) s (answerOk .bus none (storeAtCursor d s)))
    (rdc : ∀ s, P .rdc s (answerOk .bus (some (.byte (fetchAtCursor s))) s))
    (size : ∀ s, P .size s (answerOk .host (some (.number Config.bufSize)) s))
    (status : ∀ text s, P (.status text) s (answer .host (statusCondition s.doubleSize text) none
      (writeRow (statusBase s.doubleSize) (cols s.doubleSize) text s)))
    (error : ∀ text s, P (.error text) s (answerOk .host none
      (writeRow (errorBase s.doubleSize) (cols s.doubleSize) text s)))
    (toggle : ∀ s, P .toggle s (answerOk .host none (initBlank (flipMode s))))
    (checkpoint : ∀ sink s, P (.checkpoint sink) s
      (answerOk .host none (putStream sink (streamOf s sink ++ checkpointRecord s) s)))
    (restoreInvalid : ∀ source s rest, ¬ Safety.ValidSource (streamOf s source) →
      P (.restore source) s (raise .host .corruptCheckpoint (putStream source rest s)))
    (restoreValid : ∀ source s rest g lo hi, Safety.ValidSource (streamOf s source) →
      (streamOf s source)[4]? = some lo → (streamOf s source)[5]? = some hi →
      le16Value lo hi < Config.bufSize → g.cursor = BitVec.ofNat 11 (le16Value lo hi) →
      (streamOf s source)[3]? = some (modeByte g.mode) →
      P (.restore source) s (answerOk .host none (commit g (putStream source rest s))))
    (begin : ∀ s, P .begin s (answerOk .host none (initBlank s))) :
    ∀ i s t, exec i s = .next t → P i s t := by
  intro i s t he
  cases i with
  | buswr a d =>
    by_cases ha : a < Config.bufSize
    · rw [exec_buswr ha] at he
      exact Host.Outcome.next.inj he ▸ buswr a d s ha
    · rw [exec_buswr_outOfRange ha] at he
      exact Host.Outcome.next.inj he ▸ buswrOutOfRange a d s ha
  | busrd a =>
    by_cases ha : a < Config.bufSize
    · rw [exec_busrd ha] at he
      exact Host.Outcome.next.inj he ▸ busrd a s ha
    · rw [exec_busrd_outOfRange ha] at he
      exact Host.Outcome.next.inj he ▸ busrdOutOfRange a s ha
  | wrc d => exact Host.Outcome.next.inj he ▸ wrc d s
  | rdc => exact Host.Outcome.next.inj he ▸ rdc s
  | size => exact Host.Outcome.next.inj he ▸ size s
  | status text => exact Host.Outcome.next.inj he ▸ status text s
  | error text => exact Host.Outcome.next.inj he ▸ error text s
  | toggle => exact Host.Outcome.next.inj he ▸ toggle s
  | checkpoint sink => exact Host.Outcome.next.inj he ▸ checkpoint sink s
  | restore source =>
    by_cases hv : Safety.ValidSource (streamOf s source)
    · obtain ⟨g, lo, hi, hx, -, h4, h5, hlt, hc, h3⟩ := exec_restore_valid hv
      rw [hx] at he
      exact Host.Outcome.next.inj he ▸ restoreValid source s _ g lo hi hv h4 h5 hlt hc h3
    · rw [exec_restore_invalid hv] at he
      exact Host.Outcome.next.inj he ▸ restoreInvalid source s _ hv
  | begin => exact Host.Outcome.next.inj he ▸ begin s

/-- What a step can be: idle, the earliest operation executed, or its presentation refused. -/
theorem step_cases (s : State) :
    (s.pending = [] ∧ step s = .next s) ∨
    (∃ r rest i, s.pending = r :: rest ∧ decode r = .ok i ∧
      step s = exec i { s with pending := rest }) ∨
    (∃ r rest e, s.pending = r :: rest ∧ decode r = .error e ∧
      step s = .refused (refusalOf e)) := by
  cases hp : s.pending with
  | nil => exact .inl ⟨rfl, by simp [step, takeRequest, hp]⟩
  | cons r rest =>
    right
    cases hd : decode r with
    | ok i => exact .inl ⟨r, rest, i, rfl, hd, by simp [step, takeRequest, hp, hd]⟩
    | error e => exact .inr ⟨r, rest, e, rfl, hd, by simp [step, takeRequest, hp, hd]⟩

/-- No operation reads or writes the operations still to come. -/
theorem exec_pending {i : Instr} {s t : State} (h : exec i s = .next t) (p : List Request) :
    exec i { s with pending := p } = .next { t with pending := p } := by
  revert h
  cases i with
  | buswr a d =>
    by_cases ha : a < Config.bufSize
    · rw [exec_buswr ha, exec_buswr ha]
      exact fun h => Host.Outcome.next.inj h ▸ rfl
    · rw [exec_buswr_outOfRange ha, exec_buswr_outOfRange ha]
      exact fun h => Host.Outcome.next.inj h ▸ rfl
  | busrd a =>
    by_cases ha : a < Config.bufSize
    · rw [exec_busrd ha, exec_busrd ha]
      exact fun h => Host.Outcome.next.inj h ▸ rfl
    · rw [exec_busrd_outOfRange ha, exec_busrd_outOfRange ha]
      exact fun h => Host.Outcome.next.inj h ▸ rfl
  | restore k =>
    simp only [exec, execRestore, show streamOf { s with pending := p } k = streamOf s k from rfl]
    cases readRecord (streamOf s k) with
    | mk staged rest => cases staged <;> exact fun h => Host.Outcome.next.inj h ▸ rfl
  | _ => exact fun h => Host.Outcome.next.inj h ▸ rfl

/-- A run takes its first step and goes on from there. -/
theorem run_succ {s t : State} (h : step s = .next t) (k : Nat) :
    Host.Core.run Sys2Proof.core (k + 1) s = Host.Core.run Sys2Proof.core k t := by
  have hs : Sys2Proof.core.step s = .next t := h
  simp only [Host.Core.run, hs]

end Sys2Proof.Machine
end

