-- ==== Sys2Proof/Laws/PerInstr.lean ====
section
/-! SUPPORT. Facts made per operation, about it as syntax. -/

namespace Sys2Proof.Laws

/-- The encoder presents an operation on the port it belongs to (spec 30_encoding R61, R68). -/
def EncodedPort.Statement (i : Instr) : Prop := (encode i).port = i.port

theorem EncodedPort.buswr (a : Nat) (d : Byte) : EncodedPort.Statement (.buswr a d) := by
  by_cases h : a < Config.bufSize <;>
    simp [EncodedPort.Statement, encode, h, Request.port, Instr.port]

theorem EncodedPort.busrd (a : Nat) : EncodedPort.Statement (.busrd a) := by
  by_cases h : a < Config.bufSize <;>
    simp [EncodedPort.Statement, encode, h, Request.port, Instr.port]

theorem EncodedPort.wrc (d : Byte) : EncodedPort.Statement (.wrc d) := rfl
theorem EncodedPort.rdc : EncodedPort.Statement .rdc := rfl
theorem EncodedPort.size : EncodedPort.Statement .size := rfl
theorem EncodedPort.status (text : List Byte) : EncodedPort.Statement (.status text) := rfl
theorem EncodedPort.error (text : List Byte) : EncodedPort.Statement (.error text) := rfl
theorem EncodedPort.toggle : EncodedPort.Statement .toggle := rfl
theorem EncodedPort.checkpoint (sink : StreamId) : EncodedPort.Statement (.checkpoint sink) := rfl
theorem EncodedPort.restore (source : StreamId) : EncodedPort.Statement (.restore source) := rfl
theorem EncodedPort.begin : EncodedPort.Statement .begin := rfl

end Sys2Proof.Laws
end

