-- ==== Sys2Proof/Tests/Slice0.lean ====
section
/-! SUPPORT. The model's own tests: ill-formed terms, written-out words, one step of each operation against
spec 95_test_vectors, and a witness for the hypotheses of each statement. -/

namespace Sys2Proof.Tests

open Sys2Proof.Machine Sys2Proof.Safety

/-- A small device state. -/
def dev (m : Bool) (cursor : Addr) (cells : List Host.Cell) : State :=
  { State.launch cells cursor with doubleSize := m }

/-- A device state with one stream of the host's, number 0. -/
def devWith (m : Bool) (cursor : Addr) (cells : List Host.Cell) (src : List Byte) : State :=
  { dev m cursor cells with streams := [(0, src)] }

/-- The next state of an outcome. -/
def next? : Host.Outcome State Fault Refusal → Option State
  | .next t => some t
  | .fault _ => none
  | .refused _ => none

/-- The refusal of an outcome. -/
def refusal? : Host.Outcome State Fault Refusal → Option Refusal
  | .next _ => none
  | .fault _ => none
  | .refused r => some r

/-- An answer of the bus port. -/
def busAnswer (v : Option Value) : Option Response := some { port := .bus, cond := .ok, value := v }

/-- An answer of the host port. -/
def hostAnswer (c : Condition) : Option Response := some { port := .host, cond := c, value := none }

/-- The record of 95_test_vectors A3 row 1: `01 00 08 01 07 00`, 7 blanks, `41`, 2040 blanks. -/
def recordA3 : List Byte :=
  [0x01#8, 0x00#8, 0x08#8, 0x01#8, 0x07#8, 0x00#8] ++
    (List.replicate 7 0x20#8 ++ 0x41#8 :: List.replicate 2040 0x20#8)

/-! ### Well-formedness: an ill-formed term for each check -/

theorem test_buswr_address_out_of_range_is_ill_formed :
    (Instr.buswr 2048 0x41#8).wellFormed = false ∧ (Instr.buswr 2047 0x41#8).wellFormed = true := by
  decide

theorem test_busrd_address_out_of_range_is_ill_formed :
    (Instr.busrd 65535).wellFormed = false ∧ (Instr.busrd 2047).wellFormed = true := by decide

/-! ### Words written out from the encodings (95_test_vectors A1, B1, B2, B3, B5, C1) -/

theorem test_decode_bus_words :
    decode (.bus 0x1FFFFF#21) = .ok (.buswr 2047 0xFF#8) ∧
    decode (.bus 0x1BE82A#21) = .ok (.buswr 1000 0x2A#8) ∧
    decode (.bus 0x17FF00#21) = .ok (.busrd 2047) ∧
    decode (.bus 0x13C000#21) = .ok (.busrd 960) ∧
    decode (.bus 0x08004A#21) = .ok (.wrc 0x4A#8) ∧
    decode (.bus 0x000000#21) = .ok .rdc := by decide

theorem test_decode_bus_bits :
    decode (.bus 0b110000000010101000001#21) = .ok (.buswr 5 0x41#8) ∧
    decode (.bus 0b100000000011000000000#21) = .ok (.busrd 6) ∧
    decode (.bus 0b010000000000001000010#21) = .ok (.wrc 0x42#8) := by decide

theorem test_decode_reserved_bus_words :
    decode (.bus 0x100501#21) = .error (.reservedBusWord 0x100501#21) ∧
    decode (.bus 0x080142#21) = .error (.reservedBusWord 0x080142#21) ∧
    decode (.bus 0x000001#21) = .error (.reservedBusWord 0x000001#21) := by decide

theorem test_decode_host_codes :
    decode (.host 0x01#8 .absent) = .ok .size ∧
    decode (.host 0x02#8 (.text [0x4F#8, 0x4B#8])) = .ok (.status [0x4F#8, 0x4B#8]) ∧
    decode (.host 0x03#8 (.text [])) = .ok (.error []) ∧
    decode (.host 0x04#8 .absent) = .ok .toggle ∧
    decode (.host 0x05#8 (.stream 3)) = .ok (.checkpoint 3) ∧
    decode (.host 0x06#8 (.stream 4)) = .ok (.restore 4) ∧
    decode (.host 0x07#8 .absent) = .ok .begin := by decide

theorem test_decode_reserved_host_codes :
    decode (.host 0x00#8 .absent) = .error (.reservedHostCode 0x00#8) ∧
    decode (.host 0x08#8 .absent) = .error (.reservedHostCode 0x08#8) ∧
    decode (.host 0xFF#8 (.text [])) = .error (.reservedHostCode 0xFF#8) := by decide

theorem test_decode_operand_mismatch :
    decode (.host 0x02#8 .absent) = .error (.operandMismatch 0x02#8) ∧
    decode (.host 0x04#8 (.stream 0)) = .error (.operandMismatch 0x04#8) := by decide

/-- The encodings of 95_test_vectors C1, C4. -/
theorem test_encode_words :
    encode (.buswr 0 0x48#8) = .bus 0x180048#21 ∧ encode (.busrd 100) = .bus 0x106400#21 ∧
    encode (.wrc 0x4A#8) = .bus 0x08004A#21 ∧ encode .rdc = .bus 0x000000#21 ∧
    encode .begin = .host 0x07#8 .absent := by decide

/-- Every row of the opcode table decodes, and runs as the first operation after reset. -/
theorem test_every_row_runs_first :
    ([(24, 0x180541), (24, 0x100500), (24, 0x080042), (24, 0), (8, 1), (8, 2), (8, 3), (8, 4), (8, 5),
      (8, 6), (8, 7)].all fun r =>
        (decodeTableWord r.1 r.2).isSome &&
          (next? (step (State.reset.withFetchWord r.1 r.2))).isSome) = true := by decide

/-! ### One step of each operation (95_test_vectors B1 to B4) -/

/-- A7. -/
theorem test_size : (next? (exec .size (dev false 77#11 []))).bind State.response =
    some { port := .host, cond := .ok, value := some (.number 2048) } := by decide

/-- B1 #1. -/
theorem test_buswr : (next? (exec (.buswr 5 0x41#8) (dev true 0#11 []))).map
    (fun t => (t.buffer, t.cursor, t.response)) =
    some ([(5, 0x41#8)], 5#11, busAnswer none) := by decide

/-- B1 #13: no clamp, no wrap, the cursor unchanged. -/
theorem test_buswr_out_of_range :
    (next? (exec (.buswr 2048 0x41#8) (dev true 9#11 [(5, 0x41#8)]))).map
      (fun t => (t.buffer, t.cursor, t.response)) =
    some ([(5, 0x41#8)], 9#11,
      some { port := .bus, cond := .outOfRange 2048, value := none }) := by decide

/-- B1 #2: the read moves the cursor and changes no cell. -/
theorem test_busrd : (next? (exec (.busrd 6) (dev true 5#11 [(5, 0x41#8)]))).map
    (fun t => (t.buffer, t.cursor, t.response)) =
    some ([(5, 0x41#8)], 6#11, busAnswer (some (.byte 0x20#8))) := by decide

/-- B1 #14. -/
theorem test_busrd_out_of_range : (next? (exec (.busrd 65535) (dev true 9#11 []))).map
    (fun t => (t.cursor, t.response)) =
    some (9#11, some { port := .bus, cond := .outOfRange 65535, value := none }) := by decide

/-- B1 #4: no auto-advance. -/
theorem test_wrc : (next? (exec (.wrc 0x43#8) (dev true 6#11 [(5, 0x41#8), (6, 0x42#8)]))).map
    (fun t => (t.buffer, t.cursor)) = some ([(5, 0x41#8), (6, 0x43#8)], 6#11) := by decide

/-- B1 #5. -/
theorem test_rdc : (next? (exec .rdc (dev true 6#11 [(5, 0x41#8), (6, 0x43#8)]))).map
    (fun t => (t.buffer, t.cursor, t.response)) =
    some ([(5, 0x41#8), (6, 0x43#8)], 6#11, busAnswer (some (.byte 0x43#8))) := by decide

/-- B2 #2: a shorter text erases the longer one. -/
theorem test_status_short : (next? (exec (.status [0x4F#8, 0x4B#8]) (dev true 0#11
      [(960, 0x48#8), (961, 0x45#8), (962, 0x4C#8), (963, 0x4C#8), (964, 0x4F#8)]))).map
    (fun t => (t.buffer, t.response)) =
    some ([(960, 0x4F#8), (961, 0x4B#8)], hostAnswer .ok) := by decide +kernel

/-- B2 #4: truncated, not wrapped, written, and `DisplayOverflow`. -/
theorem test_status_overflow : (next? (exec (.status (List.replicate 41 0x78#8)) (dev true 0#11 []))).map
    (fun t => (readCell t 960, readCell t 999, readCell t 1000, t.response)) =
    some (0x78#8, 0x78#8, 0x20#8, hostAnswer .displayOverflow) := by decide +kernel

/-- B2 #9: the error row in NormalSize. -/
theorem test_error_normal : (next? (exec (.error [0x42#8, 0x41#8, 0x44#8]) (dev false 0#11 []))).map
    (fun t => (t.buffer, t.response)) =
    some ([(1840, 0x42#8), (1841, 0x41#8), (1842, 0x44#8)], hostAnswer .ok) := by decide +kernel

/-- B2 #10: silent truncation, the status row untouched. -/
theorem test_error_overflow : (next? (exec (.error (List.replicate 41 0x78#8)) (dev true 0#11 []))).map
    (fun t => (readCell t 920, readCell t 959, readCell t 960, t.response)) =
    some (0x78#8, 0x78#8, 0x20#8, hostAnswer .ok) := by decide +kernel

/-- B3 #5: content is not laid out again. -/
theorem test_toggle : (next? (exec .toggle (dev true 5#11 [(5, 0x41#8)]))).map
    (fun t => (readCell t 5, t.cursor, t.doubleSize)) = some (0x20#8, 0#11, false) := by
  decide +kernel

/-- B3 #3: the mode is kept, the status text gone, the cursor 0. -/
theorem test_begin : (next? (exec .begin (dev false 77#11 [(1920, 0x48#8), (2047, 0x42#8)]))).map
    (fun t => (readCell t 1920, readCell t 2047, t.cursor, t.doubleSize)) =
    some (0x20#8, 0x20#8, 0#11, false) := by decide +kernel

/-- B4 #2: the header and the cell at offset 6 + 1999. -/
theorem test_checkpoint : (next? (exec (.checkpoint 0) (dev true 1999#11 [(1999, 0x7E#8)]))).map
    (fun t => ((streamOf t 0).take 6, (streamOf t 0)[2005]?, (streamOf t 0).length)) =
    some ([0x01#8, 0x00#8, 0x08#8, 0x01#8, 0xCF#8, 0x07#8], some 0x7E#8, 2054) := by decide +kernel

/-- B4 #6: the record restored, the mode changed, trailing bytes left in the source. -/
theorem test_restore : (next? (exec (.restore 0)
      (devWith false 0#11 [] (recordA3 ++ [0xAA#8, 0xBB#8])))).map
    (fun t => (t.buffer, t.cursor, t.doubleSize, streamOf t 0)) =
    some ([(7, 0x41#8)], 7#11, true, [0xAA#8, 0xBB#8]) := by decide +kernel

/-- A4: a mode byte 0x02 fails check 3; four bytes are gone, the device is unchanged. -/
theorem test_restore_bad_mode : (next? (exec (.restore 0)
      (devWith false 33#11 [(33, 0x5A#8)] [0x01#8, 0x00#8, 0x08#8, 0x02#8, 0x07#8]))).map
    (fun t => (t.buffer, (t.cursor, t.doubleSize), streamOf t 0, t.response)) =
    some ([(33, 0x5A#8)], (33#11, false), [0x07#8], hostAnswer .corruptCheckpoint) := by decide

/-- A reserved word is refused, with no state. -/
theorem test_step_refuses_reserved :
    refusal? (step { dev true 0#11 [] with pending := [.bus 0x100501#21] }) =
      some (.reservedBusWord 0x100501#21) := by decide

/-- 20_memory R48: row 1, column 1 is cell 41 in DoubleSize, cell 81 in NormalSize. -/
theorem test_screen : ((screen true [(41, 0x41#8)])[1]?.bind (·[1]?)) = some 0x41#8 ∧
    ((screen false [(81, 0x41#8)])[1]?.bind (·[1]?)) = some 0x41#8 := by decide +kernel

/-- 30_encoding R73 (95_test_vectors C4 line 6). -/
theorem test_puts : puts 960 [0x4E#8, 0x4F#8] = some [.buswr 960 0x4E#8, .buswr 961 0x4F#8] ∧
    puts 2047 [0x4E#8, 0x4F#8] = none := by decide

/-- 30_encoding R72. -/
theorem test_asm : (Instr.buswr 5 0x41#8).asm = "BUSWR 5, 65" ∧
    (Instr.status [0x4F#8, 0x4B#8]).asm = "STATUS \"OK\"" := by decide +kernel

/-! ### Witnesses: a state and operands that meet the hypotheses of each statement -/

/-- `BlankState(true)`: the hypotheses about launch, canonical and blank states. -/
theorem witness_launch_state : IsLaunch State.reset ∧ StateInv State.reset := by decide

theorem witness_blank_state : StateInv State.reset ∧ IsBlank true State.reset :=
  ⟨by decide, rfl, rfl, fun _ _ => rfl⟩

/-- EveryStepKeepsTheInvariant, with a buffer and a pending store. -/
theorem witness_step_from_invariant :
    StateInv { dev true 0#11 [(5, 0x41#8)] with pending := [.bus 0x180642#21] } ∧
    ∃ t, step { dev true 0#11 [(5, 0x41#8)] with pending := [.bus 0x180642#21] } = .next t :=
  ⟨by decide, _, rfl⟩

/-- StepRunsTheDecodedOperation. -/
theorem witness_decoded_operation :
    { dev true 0#11 [] with pending := [Request.bus 0x180541#21] }.pending =
      .bus 0x180541#21 :: [] ∧ decode (.bus 0x180541#21) = .ok (.buswr 5 0x41#8) := ⟨rfl, by decide⟩

/-- StepIsIdleWithNothingIssued. -/
theorem witness_idle : State.reset.pending = [] := rfl

/-- ConformingRunsNeverStop, RunExecutesTheIssuedOperationsInOrder. -/
theorem witness_conforming :
    Conforming { dev true 0#11 [] with pending := [Request.bus 0x180541#21, .host 0x04#8 .absent] } ∧
    [Request.bus 0x180541#21, .host 0x04#8 .absent] =
      [Instr.buswr 5 0x41#8, .toggle].map encode := by
  refine ⟨fun r hr => ?_, by decide⟩
  rcases List.mem_cons.1 hr with rfl | hr
  · exact ⟨.buswr 5 0x41#8, by decide⟩
  · exact ⟨.toggle, by rw [List.mem_singleton.1 hr]; decide⟩

/-- ReservedEncodingsAreRefused: both sides of each equivalence occur. -/
theorem witness_reserved_word :
    { dev true 0#11 [] with pending := [Request.bus 0x080142#21] }.pending = .bus 0x080142#21 :: [] ∧
    (0x080142#21 : BusWord).getLsbD 20 = false ∧
    (0x080142#21 : BusWord).extractLsb' 8 11 ≠ 0#11 := ⟨rfl, by decide, by decide⟩

theorem witness_reserved_code :
    { dev true 0#11 [] with pending := [Request.host 0x08#8 .absent] }.pending =
      .host 0x08#8 .absent :: [] ∧ 8 ≤ (0x08#8 : Command).toNat := ⟨rfl, by decide⟩

/-- DecodeOfEncodeIsTheOperation, EncodeOfDecodeIsThePortWord. -/
theorem witness_well_formed : (Instr.buswr 2047 0xFF#8).wellFormed = true ∧
    decode (.bus 0x1FFFFF#21) = .ok (.buswr 2047 0xFF#8) ∧
    decode (.host 0x05#8 (.stream 3)) = .ok (.checkpoint 3) := by decide

/-- BuswrLatchesAndStores, BusrdLatchesAndReads, SETCUR: the last address in range, the first outside. -/
theorem witness_addresses : 2047 < 2048 ∧ 2048 ≤ 2048 := by decide

/-- OutOfRangeArisesOnlyFromWiderAddresses, both clauses that suppose an outcome. -/
theorem witness_out_of_range : ∃ t, exec (.busrd 2048) State.reset = .next t ∧
    Answered t .bus (.outOfRange 2048) none :=
  ⟨_, exec_busrd_outOfRange (by decide) _, rfl⟩

theorem witness_encoded_word_executes : decode (.bus 0x17FF00#21) = .ok (.busrd 2047) ∧
    ∃ t, exec (.busrd 2047) State.reset = .next t :=
  ⟨by decide, _, exec_busrd (by decide) _⟩

/-- LatchingIsALoadThenATransfer: the cursor at the address, and another address. -/
theorem witness_latching : 5 < 2048 ∧ (dev true 5#11 []).cursor.toNat = 5 ∧ 6 < 2048 ∧ 6 ≠ 5 := by
  decide

/-- RowTextReadsBack: `u` may be the state the operation leaves. -/
theorem witness_row_text : ∃ t u, exec (.status [0x48#8]) State.reset = .next t ∧
    (∀ i, i < cols State.reset.doubleSize → readCell u (statusBase State.reset.doubleSize + i) =
      readCell t (statusBase State.reset.doubleSize + i)) :=
  ⟨_, _, exec_status _ _, fun _ _ => rfl⟩

theorem witness_error_text : ∃ t u, exec (.error [0x48#8]) State.reset = .next t ∧
    (∀ i, i < cols State.reset.doubleSize → readCell u (errorBase State.reset.doubleSize + i) =
      readCell t (errorBase State.reset.doubleSize + i)) :=
  ⟨_, _, exec_error _ _, fun _ _ => rfl⟩

theorem recordA3_valid : ValidSource recordA3 :=
  ⟨by decide +kernel, by decide, by decide, by decide, .inr (by decide), 0x00#8, by decide, by decide⟩

/-- The source of `devWith` is the stream it is given. -/
theorem streamOf_devWith (m : Bool) (c : Addr) (cells : List Host.Cell) (src : List Byte) :
    streamOf (devWith m c cells src) 0 = src := rfl

/-- RestoreLoadsAValidRecordOrNothing (success), CorruptSourcesChangeNothing (undetected changes, at the
last cell and the last cursor). -/
theorem witness_valid_source : ValidSource (streamOf (devWith false 0#11 [] recordA3) 0) ∧
    2047 < 2048 ∧ (0x07#8 : Byte).toNat < 8 :=
  ⟨recordA3_valid, by decide, by decide⟩

/-- RestoreLoadsAValidRecordOrNothing (failure), CorruptSourcesChangeNothing: an empty source. -/
theorem witness_invalid_source : ¬ ValidSource (streamOf State.reset 0) ∧
    (streamOf State.reset 0).length < 2054 :=
  ⟨fun h => absurd h.1 (by decide), by decide⟩

/-- CheckpointThenRestoreReproducesTheState, first part: a checkpoint into stream 0, its bytes then
stream 1 of another device. -/
theorem witness_checkpoint_then_restore : ∃ s1 t,
    StateInv (dev true 7#11 [(7, 0x41#8)]) ∧ streamOf (dev true 7#11 [(7, 0x41#8)]) 0 = [] ∧
    exec (.checkpoint 0) (dev true 7#11 [(7, 0x41#8)]) = .next s1 ∧
    t.doubleSize = false ∧ streamOf t 1 = streamOf s1 0 :=
  ⟨_, putStream 1 (streamOf _ 0) (dev false 0#11 []), by decide, rfl, exec_checkpoint _ _, rfl,
    streamOf_putStream_same _ _ _⟩

/-- CheckpointThenRestoreReproducesTheState, second part: the record restored, stream 1 empty. -/
theorem witness_restore_then_checkpoint : ∃ t,
    ValidSource (streamOf (devWith false 0#11 [] recordA3) 0) ∧
    (streamOf (devWith false 0#11 [] recordA3) 0).length = 2054 ∧
    exec (.restore 0) (devWith false 0#11 [] recordA3) = .next t ∧ streamOf t 1 = [] := by
  obtain ⟨g, -, -, hx, -⟩ := exec_restore_valid (s := devWith false 0#11 [] recordA3) (source := 0)
    recordA3_valid
  refine ⟨_, recordA3_valid, by rw [streamOf_devWith]; decide +kernel, hx, ?_⟩
  rw [streamOf_answerOk, streamOf_commit, streamOf_putStream_other (by decide)]
  rfl

/-- AnswersFollowTheTable: an answer other than `OK`. -/
theorem witness_answer : ∃ t, exec (.restore 0) State.reset = .next t ∧
    Answered t .host .corruptCheckpoint none :=
  ⟨_, exec_restore_invalid witness_invalid_source.1, rfl⟩

/-- NoOperationReadsThePastAnswer: an operation issued, and two different answers before it. -/
theorem witness_past_answer :
    { dev true 0#11 [] with pending := [Request.bus 0#21] }.pending ≠ [] ∧
    (dev true 0#11 []).response ≠ some { port := .host, cond := .displayOverflow, value := none } := by
  decide

/-- BusPortReachesOnlyCellsAndCursor, BusPortCannotTellTheMode. -/
theorem witness_bus_operation : decode (.bus 0x080042#21) = .ok (.wrc 0x42#8) ∧
    (Instr.wrc 0x42#8).port = .bus ∧ ∃ t, exec (.wrc 0x42#8) State.reset = .next t :=
  ⟨by decide, rfl, _, exec_wrc _ _⟩

/-- ModeChangesOnlyByToggleOrRestore, one for each part; CursorIsOnlyLoadedWhole by the last. -/
theorem witness_mode : (∃ t, exec .toggle State.reset = .next t) ∧
    (∃ t, exec (.restore 0) State.reset = .next t) ∧
    ∃ t, exec .begin State.reset = .next t ∧ Instr.begin ≠ .toggle ∧ ∀ k, Instr.begin ≠ .restore k :=
  ⟨⟨_, exec_toggle _⟩, ⟨_, exec_restore_invalid witness_invalid_source.1⟩, _, exec_begin _,
    by decide, fun _ => by simp⟩

/-- OnlyNamedOperationsWriteACell: a store that changes the cell. -/
theorem witness_cell_changes : ∃ t, exec (.wrc 0x42#8) State.reset = .next t ∧
    readCell t 0 ≠ readCell State.reset 0 :=
  ⟨_, exec_wrc _ _, by decide⟩

/-- ReadsChangeNoCellAndRepeat. -/
theorem witness_read : ((∃ a, Instr.rdc = .busrd a) ∨ Instr.rdc = .rdc) ∧
    (∃ t, exec .rdc State.reset = .next t) ∧ ∀ a, Instr.rdc ≠ .busrd a :=
  ⟨.inr rfl, ⟨_, exec_rdc _⟩, fun _ => by simp⟩

/-- ScreenShowsTheVisibleCells: the last row and column, the first off-screen cell. -/
theorem witness_screen : 24 < 25 ∧ 39 < cols true ∧ 79 < cols false ∧ visible true ≤ 1000 ∧
    visible false ≤ 2000 := by decide

/-- PseudoOperationsSetTheCursorAndPutText: a text that ends at the last cell, and the empty text. -/
theorem witness_puts : puts 2046 [0x4E#8, 0x4F#8] = some [.buswr 2046 0x4E#8, .buswr 2047 0x4F#8] ∧
    puts 2048 [] = some [] := by decide

/-- WindowIsTheIdentityFromDevBase: the first address after the window. -/
theorem witness_window : 2047 < 2048 ∧ Config.devBase + 2048 ≤ Config.devBase + 2048 :=
  ⟨by decide, le_refl _⟩

end Sys2Proof.Tests
end

section
/-! The parameters and the geometry (spec 00_scope R5, R10, R11): the constraints that R5 puts on its
values, the byte order of a 16-bit field, and the five geometry functions. -/

namespace Sys2Proof.Machine

/-! ### The constraints of R5 -/

theorem two_pow_addrBits : 2 ^ Config.addrBits = Config.bufSize := by decide

theorem screen_fits_buffer : 2 ≤ Config.rows ∧ Config.rows * Config.colsNormal ≤ Config.bufSize := by
  decide

theorem textRows_distinct_on_screen : Config.statusRow < Config.rows ∧
    Config.errorRow < Config.rows ∧ Config.errorRow ≠ Config.statusRow := by
  decide

/-- R11: a 16-bit field is stored low byte first, whatever its two bytes. -/
theorem le16Bytes_le16Value (lo hi : Byte) : le16Bytes (le16Value lo hi) = [lo, hi] := by
  have lo_lt : lo.toNat < 256 := lo.isLt
  have low : BitVec.ofNat 8 (lo.toNat + 256 * hi.toNat) = lo :=
    BitVec.eq_of_toNat_eq (by simp [lo_lt])
  have high : (lo.toNat + 256 * hi.toNat) / 256 = hi.toNat := by omega
  simp [le16Bytes, le16Value, low, high]

/-- Settles O48: R5's values, its constraints, and the byte order at `0x0807`. -/
theorem parametersMeetTheirConstraints : Obligations.ParametersMeetTheirConstraints := by
  obtain ⟨rows_min, rows_fit⟩ := screen_fits_buffer
  obtain ⟨status_lt, error_lt, error_ne_status⟩ := textRows_distinct_on_screen
  have byteOrder : le16Bytes 0x0807 = [0x07#8, 0x08#8] := le16Bytes_le16Value 0x07#8 0x08#8
  exact ⟨rfl, rfl, two_pow_addrBits, rfl, rfl, rfl, rfl, rows_min, rows_fit, rfl, rfl, status_lt,
    error_lt, error_ne_status, rfl, rfl, rfl, rfl, rfl, byteOrder⟩

/-! ### The geometry functions of R10 -/

theorem cols_true : cols true = 40 := rfl
theorem cols_false : cols false = 80 := rfl

theorem rowBase_eq (m : Bool) (r : Nat) : rowBase m r = r * cols m := rfl

theorem statusBase_eq (m : Bool) : statusBase m = 24 * cols m := rowBase_eq m Config.statusRow
theorem errorBase_eq (m : Bool) : errorBase m = 23 * cols m := rowBase_eq m Config.errorRow
theorem visible_eq (m : Bool) : visible m = 25 * cols m := rfl

/-- Settles O49: each base is a row number times `COLS(m)`, which is 40 or 80. -/
theorem geometryFollowsTheMode : Obligations.GeometryFollowsTheMode := by
  refine ⟨cols_true, cols_false, rowBase_eq, ?_⟩
  simp [statusBase_eq, errorBase_eq, visible_eq, cols_true, cols_false]

end Sys2Proof.Machine
end

section
/-! The launch state and the mode (spec 10_state R26, R27, R30, R32): what initialization leaves, and
which operations change the mode. -/

namespace Sys2Proof.Machine

open Sys2Proof.Safety

/-! ### Launch and `BlankState` -/

theorem isLaunch_launch (buffer : List Host.Cell) (cursor : Addr) :
    IsLaunch (State.launch buffer cursor) := ⟨rfl, rfl, rfl⟩

/-- `InitBlank` leaves the `BlankState` of the mode it finds (R32); an answer does not disturb it. -/
theorem isBlank_answerOk_initBlank (p : Port) (v : Option Value) (s : State) :
    IsBlank s.doubleSize (answerOk p v (initBlank s)) :=
  ⟨rfl, rfl, readCell_initBlank s⟩

/-- Settles O1: the launch mode is DoubleSize, and `BEGIN` is `InitBlank` in the mode it finds. -/
theorem launchIsDoubleSizeAndBeginBlanksIt : Obligations.LaunchIsDoubleSizeAndBeginBlanksIt := by
  refine ⟨fun buffer cursor => ⟨isLaunch_launch buffer cursor, rfl, rfl⟩, isLaunch_launch _ _, ?_⟩
  rintro s ⟨launch_mode, -, -⟩
  have blank := isBlank_answerOk_initBlank .host none s
  rw [launch_mode] at blank
  exact ⟨_, exec_begin s, blank, rfl⟩

/-! ### What changes the mode -/

theorem modeByte_eq_one_iff (m : Bool) : modeByte m = 0x01#8 ↔ m = true := by
  cases m <;> decide

theorem exec_toggle_doubleSize {s t : State} (executes : exec .toggle s = .next t) :
    t.doubleSize = !s.doubleSize := by
  rw [exec_toggle] at executes
  obtain rfl := Host.Outcome.next.inj executes
  simp

/-- R27: a successful `RESTORE` takes the mode from byte 3 of the record, a failed one keeps it. -/
theorem exec_restore_doubleSize {k : StreamId} {s t : State}
    (executes : exec (.restore k) s = .next t) :
    (Answered t .host .ok none ∧ (t.doubleSize = true ↔ (streamOf s k)[3]? = some 0x01#8)) ∨
    (Answered t .host .corruptCheckpoint none ∧ t.doubleSize = s.doubleSize) := by
  by_cases valid : ValidSource (streamOf s k)
  · obtain ⟨g, lo, hi, restores, -, -, -, -, -, mode_byte⟩ := exec_restore_valid valid
    rw [restores] at executes
    obtain rfl := Host.Outcome.next.inj executes
    refine .inl ⟨rfl, ?_⟩
    rw [mode_byte, Option.some.injEq, modeByte_eq_one_iff]
    rfl
  · rw [exec_restore_invalid valid] at executes
    obtain rfl := Host.Outcome.next.inj executes
    exact .inr ⟨rfl, rfl⟩

/-- The other half of R27: an operation that changes the mode is `TOGGLE` or a `RESTORE`. -/
theorem exec_doubleSize_cases : ∀ i s t, exec i s = .next t →
    t.doubleSize = s.doubleSize ∨ i = .toggle ∨ ∃ k, i = .restore k := by
  apply exec_inversion
  case toggle => exact fun _ => .inr (.inl rfl)
  case restoreValid =>
    intros
    exact .inr (.inr ⟨_, rfl⟩)
  all_goals
    intros
    exact .inl (by simp)

/-- Settles O41: `TOGGLE` and `RESTORE` by their own lemmas, the others by the inversion of `exec`. -/
theorem modeChangesOnlyByToggleOrRestore : Obligations.ModeChangesOnlyByToggleOrRestore := by
  refine ⟨fun _ _ => exec_toggle_doubleSize, fun _ _ _ => exec_restore_doubleSize, ?_⟩
  intro i s t executes not_toggle not_restore
  rcases exec_doubleSize_cases i s t executes with kept | toggle | ⟨k, restore⟩
  · exact kept
  · exact absurd toggle not_toggle
  · exact absurd restore (not_restore k)

end Sys2Proof.Machine
end

section
/-! The command codes and the pseudo-operations (spec 30_encoding R65, R73): what each code decodes to,
and what `SETCUR` and `PUTS` leave when their operations are run one after the other. -/

namespace Sys2Proof.Machine

open Sys2Proof.Safety

/-! ### The command codes -/

/-- Settles O12: each code selects its row of R65 by computation, and the row hands on its operand. -/
theorem hostCodesFollowTheTable : Obligations.HostCodesFollowTheTable :=
  ⟨rfl, fun _ => rfl, fun _ => rfl, rfl, fun _ => rfl, fun _ => rfl, rfl⟩

/-! ### Lists of operations -/

theorem execList_cons {i : Instr} {s t : State} (executes : exec i s = .next t) (rest : List Instr) :
    execList (i :: rest) s = execList rest t := by
  simp only [execList, executes]

/-! ### Cells after a write of consecutive cells -/

section WriteFrom

variable {s t : State} {base : Nat} {bytes : List Byte}

theorem readCell_of_writeFrom (written : t.buffer = bufferWriteFrom s.buffer base bytes) {i : Nat}
    (inside : i < bytes.length) : bytes[i]? = some (readCell t (base + i)) := by
  simp [readCell, written, bufferRead_writeFrom, inside]

theorem sameCellsOutside_of_writeFrom (written : t.buffer = bufferWriteFrom s.buffer base bytes) :
    SameCellsOutside base bytes.length s t := by
  intro i outside
  have not_written : ¬ (base ≤ i ∧ i - base < bytes.length) := by omega
  rw [readCell, written, bufferRead_writeFrom, dif_neg not_written, readCell]

end WriteFrom

/-! ### `SETCUR` -/

/-- R73: `SETCUR a` loads the cursor and changes nothing else of the device or of the host's side. -/
theorem execList_setcur {a : Nat} (legal : a < Config.bufSize) (s : State) :
    ∃ t, execList (setcur a) s = .next t ∧ t.cursor.toNat = a ∧ SameCells s t ∧
      t.doubleSize = s.doubleSize ∧ SameHostSide s t := by
  refine ⟨_, execList_cons (exec_busrd legal s) [], ?_⟩
  exact ⟨toNat_address legal, fun _ => rfl, rfl, rfl, rfl⟩

/-! ### `PUTS` -/

theorem puts_eq_none_iff (a : Nat) (text : List Byte) :
    puts a text = none ↔ Config.bufSize < a + text.length := by
  simp [puts]

theorem puts_eq_some_iff {a : Nat} {text : List Byte} {ops : List Instr} :
    puts a text = some ops ↔ a + text.length ≤ Config.bufSize ∧ putsFrom a text = ops := by
  simp [puts]

/-- The operations of a legal `PUTS` together write the text as consecutive cells; the cursor is left
where the last of them latched it. -/
theorem execList_putsFrom {a : Nat} {text : List Byte} (fits : a + text.length ≤ Config.bufSize)
    (s : State) :
    ∃ t, execList (putsFrom a text) s = .next t ∧ t.buffer = bufferWriteFrom s.buffer a text ∧
      t.doubleSize = s.doubleSize ∧ SameHostSide s t ∧ (text = [] → t = s) ∧
      (text ≠ [] → t.cursor.toNat = a + text.length - 1) := by
  induction text generalizing a s with
  | nil => exact ⟨s, rfl, rfl, rfl, ⟨rfl, rfl⟩, fun _ => rfl, fun nonempty => absurd rfl nonempty⟩
  | cons c cs ih =>
    rw [List.length_cons] at fits
    have legal : a < Config.bufSize := by omega
    have latched : (BitVec.ofNat 11 a).toNat = a := toNat_address legal
    obtain ⟨t, runs, stored, mode_kept, host_kept, stays, ends⟩ :=
      ih (a := a + 1) (by omega)
        (answerOk .bus none (storeAtCursor c (loadCursor (BitVec.ofNat 11 a) s)))
    refine ⟨t, (execList_cons (exec_buswr legal c s) _).trans runs, ?_, mode_kept, host_kept,
      fun empty => absurd empty (List.cons_ne_nil c cs), fun _ => ?_⟩
    · rw [stored, answerOk_buffer, storeAtCursor_buffer, loadCursor_buffer, loadCursor_cursor,
        latched, bufferWriteFrom]
    · rw [List.length_cons]
      rcases eq_or_ne cs [] with rfl | more
      · rw [stays rfl]
        exact latched
      · have := ends more
        omega

/-- Settles O46: `SETCUR` is one `BUSRD`; `PUTS` is by induction on the text a write of consecutive
cells. -/
theorem pseudoOperationsSetTheCursorAndPutText :
    Obligations.PseudoOperationsSetTheCursorAndPutText := by
  refine ⟨fun _ s legal => execList_setcur legal s, puts_eq_none_iff, ?_⟩
  intro a text ops s is_puts
  obtain ⟨fits, rfl⟩ := puts_eq_some_iff.1 is_puts
  obtain ⟨t, runs, stored, mode_kept, host_kept, stays, ends⟩ := execList_putsFrom fits s
  exact ⟨t, runs, fun _ => readCell_of_writeFrom stored, sameCellsOutside_of_writeFrom stored,
    mode_kept, host_kept, stays, ends⟩

end Sys2Proof.Machine
end

section
/-! The bus contract (spec 40_port_access): what `SIZE`, `BUSWR`, `BUSRD`, `WRC` and `RDC` do and leave
unchanged. A latching transaction is a load of the cursor followed by the plain transfer (R85), so the
facts about `BUSWR` are those about `WRC`, in the state with the cursor loaded. -/

namespace Sys2Proof.Machine

open Sys2Proof.Safety

/-! ### The words of the bus port -/

theorem decode_busWord_latching_write (a : Addr) (d : Byte) :
    decode (.bus (busWord true true a d)) = .ok (.buswr a.toNat d) := by
  simp [decode, decodeBus, fields_busWord]

theorem decode_busWord_latching_read (a : Addr) :
    decode (.bus (busWord true false a 0#8)) = .ok (.busrd a.toNat) := by
  simp [decode, decodeBus, fields_busWord]

theorem decode_busWord_plain_write (d : Byte) :
    decode (.bus (busWord false true 0#11 d)) = .ok (.wrc d) := by
  simp [decode, decodeBus, fields_busWord]

theorem decode_busWord_plain_read : decode (.bus (busWord false false 0#11 0#8)) = .ok .rdc := by
  simp [decode, decodeBus, fields_busWord]

/-- R81: the word of `BUSWR a, d`, by its number. -/
theorem decode_buswr_number {a : Nat} (legal : a < Config.bufSize) (d : Byte) :
    decode (.bus (BitVec.ofNat 21 (0x180000 + 256 * a + d.toNat))) = .ok (.buswr a d) := by
  have decodes := decode_busWord_latching_write (BitVec.ofNat 11 a) d
  rwa [busWord, toNat_address legal] at decodes

/-- R82: the word of `BUSRD a`, by its number. -/
theorem decode_busrd_number {a : Nat} (legal : a < Config.bufSize) :
    decode (.bus (BitVec.ofNat 21 (0x100000 + 256 * a))) = .ok (.busrd a) := by
  have decodes := decode_busWord_latching_read (BitVec.ofNat 11 a)
  rwa [busWord, toNat_address legal] at decodes

/-- R83: the word of `WRC d`, by its number. -/
theorem decode_wrc_number (d : Byte) :
    decode (.bus (BitVec.ofNat 21 (0x080000 + d.toNat))) = .ok (.wrc d) :=
  decode_busWord_plain_write d

/-! ### Answers change nothing of the device or of the host's side -/

theorem answered_answer (p : Port) (c : Condition) (v : Option Value) (s : State) :
    Answered (answer p c v s) p c v := rfl

theorem sameDevice_answer (p : Port) (c : Condition) (v : Option Value) (s : State) :
    SameDevice s (answer p c v s) := ⟨rfl, rfl, rfl⟩

theorem sameHostSide_answer (p : Port) (c : Condition) (v : Option Value) (s : State) :
    SameHostSide s (answer p c v s) := ⟨rfl, rfl⟩

/-- Settles O14: `SIZE` only answers, and what it answers is `BUF_SIZE`. -/
theorem sizeAnswersTheCapacity : Obligations.SizeAnswersTheCapacity :=
  ⟨rfl, fun s => ⟨_, exec_size s, answered_answer .., sameDevice_answer .., sameHostSide_answer ..⟩⟩

/-- Settles O18: `RDC` only answers, and what it answers is the cell at the cursor. -/
theorem rdcReadsAtTheCursor : Obligations.RdcReadsAtTheCursor :=
  ⟨decode_busWord_plain_read, fun s =>
    ⟨_, exec_rdc s, answered_answer .., sameDevice_answer .., sameHostSide_answer ..⟩⟩

/-! ### `WRC` -/

theorem sameCellsOutside_storeAtCursor (d : Byte) (s : State) :
    SameCellsOutside s.cursor.toNat 1 s (storeAtCursor d s) := by
  intro i outside
  exact readCell_storeAtCursor_other d s (by omega)

/-- R83: the whole effect of `WRC`; the cursor is where it was. -/
theorem exec_wrc_stores (d : Byte) (s : State) :
    ∃ t, exec (.wrc d) s = .next t ∧ readCell t s.cursor.toNat = d ∧
      SameCellsOutside s.cursor.toNat 1 s t ∧ t.cursor = s.cursor ∧ t.doubleSize = s.doubleSize ∧
      Answered t .bus .ok none ∧ SameHostSide s t :=
  ⟨_, exec_wrc d s, readCell_storeAtCursor_same d s, sameCellsOutside_storeAtCursor d s, rfl, rfl,
    answered_answer .., sameHostSide_answer .bus .ok none (storeAtCursor d s)⟩

/-- Settles O17: the word's fields, and a store at the cursor that leaves the cursor alone. -/
theorem wrcStoresAtTheCursor : Obligations.WrcStoresAtTheCursor :=
  ⟨decode_wrc_number, exec_wrc_stores⟩

/-! ### Latching: a load of the cursor, then the plain transfer -/

theorem exec_buswr_eq_wrc {a : Nat} (legal : a < Config.bufSize) (d : Byte) (s : State) :
    exec (.buswr a d) s = exec (.wrc d) (loadCursor (BitVec.ofNat 11 a) s) :=
  exec_buswr legal d s

theorem fetchAtCursor_loadCursor {a : Nat} (legal : a < Config.bufSize) (s : State) :
    fetchAtCursor (loadCursor (BitVec.ofNat 11 a) s) = readCell s a := by
  rw [fetchAtCursor, loadCursor_cursor, toNat_address legal, readCell_loadCursor]

theorem exec_busrd_eq_rdc {a : Nat} (legal : a < Config.bufSize) (s : State) :
    exec (.busrd a) s = exec .rdc (loadCursor (BitVec.ofNat 11 a) s) := by
  rw [exec_busrd legal, exec_rdc, fetchAtCursor_loadCursor legal]

/-- R81: the whole effect of `BUSWR` at an address of the buffer. -/
theorem exec_buswr_stores {a : Nat} (legal : a < Config.bufSize) (d : Byte) (s : State) :
    ∃ t, exec (.buswr a d) s = .next t ∧ t.cursor.toNat = a ∧ readCell t a = d ∧
      SameCellsOutside a 1 s t ∧ t.doubleSize = s.doubleSize ∧ Answered t .bus .ok none ∧
      SameHostSide s t := by
  have latched : (loadCursor (BitVec.ofNat 11 a) s).cursor.toNat = a := toNat_address legal
  obtain ⟨t, executes, stored, cells_kept, cursor_kept, mode_kept, answered, host_kept⟩ :=
    exec_wrc_stores d (loadCursor (BitVec.ofNat 11 a) s)
  rw [latched] at stored cells_kept
  exact ⟨t, (exec_buswr_eq_wrc legal d s).trans executes, cursor_kept ▸ latched, stored, cells_kept,
    mode_kept, answered, host_kept⟩

/-- Settles O15: the word's fields, the effect at an address in range, and a range check that comes
before it. -/
theorem buswrLatchesAndStores : Obligations.BuswrLatchesAndStores :=
  ⟨fun _ d legal => decode_buswr_number legal d,
    fun _ d s legal => exec_buswr_stores legal d s,
    fun _ d s outside => ⟨_, exec_buswr_outOfRange (Nat.not_lt.2 outside) d s,
      sameDevice_answer .., answered_answer .., sameHostSide_answer ..⟩⟩

/-- R82: the whole effect of `BUSRD` at an address of the buffer. -/
theorem exec_busrd_reads {a : Nat} (legal : a < Config.bufSize) (s : State) :
    ∃ t, exec (.busrd a) s = .next t ∧ t.cursor.toNat = a ∧ SameCells s t ∧
      t.doubleSize = s.doubleSize ∧ Answered t .bus .ok (some (.byte (readCell s a))) ∧
      SameHostSide s t :=
  ⟨_, exec_busrd legal s, toNat_address legal, fun _ => rfl, rfl, answered_answer .., rfl, rfl⟩

/-- Settles O16: the word's fields, the effect at an address in range, and a range check that comes
before it. -/
theorem busrdLatchesAndReads : Obligations.BusrdLatchesAndReads :=
  ⟨fun _ legal => decode_busrd_number legal,
    fun _ s legal => exec_busrd_reads legal s,
    fun _ s outside => ⟨_, exec_busrd_outOfRange (Nat.not_lt.2 outside) s,
      sameDevice_answer .., answered_answer .., sameHostSide_answer ..⟩⟩

/-! ### A read after another operation -/

section ReadAfter

variable {i : Instr} {s t : State}

/-- `BUSRD b` after an operation answers the cell `b` of the state which that operation left. -/
theorem execList_then_busrd (executes : exec i s = .next t) {b : Nat} (legal : b < Config.bufSize)
    {v : Byte} (holds : readCell t b = v) :
    ∃ u, execList [i, .busrd b] s = .next u ∧ Answered u .bus .ok (some (.byte v)) := by
  obtain ⟨u, reads, -, -, -, answered, -⟩ := exec_busrd_reads legal t
  exact ⟨u, (execList_cons executes _).trans (execList_cons reads []), holds ▸ answered⟩

/-- `RDC` after an operation answers the cell at the cursor which that operation left. -/
theorem execList_then_rdc (executes : exec i s = .next t) {v : Byte}
    (holds : readCell t t.cursor.toNat = v) :
    ∃ u, execList [i, .rdc] s = .next u ∧ Answered u .bus .ok (some (.byte v)) :=
  ⟨_, (execList_cons executes _).trans (execList_cons (exec_rdc t) []), holds ▸ answered_answer ..⟩

end ReadAfter

/-- Settles O20: each write leaves its byte at the cursor and every other cell as it was, and a read
answers the cell of the state it finds. -/
theorem latchingIsALoadThenATransfer : Obligations.LatchingIsALoadThenATransfer := by
  intro a d s legal
  obtain ⟨t, latches, at_cursor, stored, others_kept, -⟩ := exec_buswr_stores legal d s
  refine ⟨exec_buswr_eq_wrc legal d s, exec_busrd_eq_rdc legal s,
    execList_then_busrd latches legal stored, execList_then_rdc latches (at_cursor.symm ▸ stored),
    ?_, ?_⟩
  · rintro rfl
    obtain ⟨t, writes, stored, -, cursor_kept, -⟩ := exec_wrc_stores d s
    exact ⟨execList_then_rdc writes (cursor_kept.symm ▸ stored),
      execList_then_busrd writes legal stored⟩
  · intro b legal_b other
    exact execList_then_busrd latches legal_b (others_kept b (by omega))

end Sys2Proof.Machine
end

section
/-! The reserved rows (spec 41_text_lines): what `WriteRow` leaves in the row and beside it, the two
operations that are a `WriteRow` and an answer, and the row read back over the bus. -/

namespace Sys2Proof.Machine

open Sys2Proof.Safety

/-! ### `WriteRow` -/

theorem rowBytes_getElem? {w i : Nat} (text : List Byte) (inside : i < w) :
    (rowBytes w text)[i]? = some (text[i]?.getD Config.blank) := by
  have inside_bytes : i < (rowBytes w text).length := inside.trans_eq (rowBytes_length w text).symm
  rw [List.getElem?_eq_getElem inside_bytes, rowBytes_getElem]
  by_cases in_text : i < text.length <;> simp [in_text]

section Row

variable (base w : Nat) (text : List Byte) (s : State)

/-- R90: the row holds the text, truncated and padded. -/
theorem readCell_writeRow {i : Nat} (inside : i < w) :
    readCell (writeRow base w text s) (base + i) = text[i]?.getD Config.blank := by
  have written := readCell_of_writeFrom (writeRow_buffer base w text s)
    (inside.trans_eq (rowBytes_length w text).symm)
  exact Option.some.inj (written.symm.trans (rowBytes_getElem? text inside))

theorem sameCellsOutside_writeRow : SameCellsOutside base w s (writeRow base w text s) := by
  have outside_kept := sameCellsOutside_of_writeFrom (writeRow_buffer base w text s)
  rwa [rowBytes_length] at outside_kept

/-- A `WriteRow` that is then answered: the row, everything beside it, and the answer. -/
theorem answer_writeRow (p : Port) (c : Condition) (v : Option Value) :
    (∀ i, i < w →
      readCell (answer p c v (writeRow base w text s)) (base + i) = text[i]?.getD Config.blank) ∧
    SameCellsOutside base w s (answer p c v (writeRow base w text s)) ∧
    (answer p c v (writeRow base w text s)).cursor = s.cursor ∧
    (answer p c v (writeRow base w text s)).doubleSize = s.doubleSize ∧
    SameHostSide s (answer p c v (writeRow base w text s)) ∧
    Answered (answer p c v (writeRow base w text s)) p c v :=
  ⟨fun _ inside => readCell_writeRow base w text s inside, sameCellsOutside_writeRow base w text s,
    rfl, rfl, sameHostSide_answer p c v (writeRow base w text s), answered_answer ..⟩

end Row

/-- Settles O21: the bytes written are the row's, and there are exactly `w` of them. -/
theorem writeRowTruncatesAndPads : Obligations.WriteRowTruncatesAndPads :=
  fun base w text s => ⟨fun _ => readCell_writeRow base w text s,
    sameCellsOutside_writeRow base w text s, writeRow_cursor .., writeRow_doubleSize ..⟩

/-! ### `STATUS` and `ERROR` -/

/-- Settles O22: `STATUS` is a `WriteRow` of the status row, then the answer of `statusCondition`. -/
theorem statusWritesTheStatusRow : Obligations.StatusWritesTheStatusRow := by
  obtain ⟨-, status_code, -⟩ := hostCodesFollowTheTable
  exact ⟨rfl, cols_true, rfl, cols_false, status_code,
    fun text s => ⟨_, exec_status text s, answer_writeRow ..⟩⟩

/-- Settles O23: `ERROR` is a `WriteRow` of the error row, then `OK`. -/
theorem errorWritesTheErrorRow : Obligations.ErrorWritesTheErrorRow := by
  obtain ⟨-, -, error_code, -⟩ := hostCodesFollowTheTable
  exact ⟨rfl, cols_true, rfl, cols_false, error_code,
    fun text s => ⟨_, exec_error text s, answer_writeRow ..⟩⟩

/-! ### Reading a row back -/

/-- R93: `BUSRD` over a row that is still as a `WriteRow` left it returns the text and the padding. -/
theorem exec_busrd_of_writeRow {base w : Nat} {text : List Byte} {s u : State}
    (fits : base + w ≤ Config.bufSize)
    (row_kept : ∀ i, i < w → readCell u (base + i) = readCell (writeRow base w text s) (base + i)) :
    ∀ i, i < w → ∃ v, exec (.busrd (base + i)) u = .next v ∧ v.cursor.toNat = base + i ∧
      Answered v .bus .ok (some (.byte (text[i]?.getD Config.blank))) := by
  intro i inside
  have legal : base + i < Config.bufSize := by omega
  have holds := (row_kept i inside).trans (readCell_writeRow base w text s inside)
  obtain ⟨v, executes, latched, -, -, answered, -⟩ := exec_busrd_reads legal u
  exact ⟨v, executes, latched, holds ▸ answered⟩

/-- Settles O24: both operations leave the row of a `WriteRow`, and both rows lie in the buffer. -/
theorem rowTextReadsBack : Obligations.RowTextReadsBack := by
  constructor
  case left =>
    intro text s t u executes row_kept
    obtain rfl := Host.Outcome.next.inj ((exec_status text s).symm.trans executes)
    exact ⟨rfl, exec_busrd_of_writeRow (statusRow_fits s.doubleSize) row_kept⟩
  case right =>
    intro text s t u executes row_kept
    obtain rfl := Host.Outcome.next.inj ((exec_error text s).symm.trans executes)
    exact ⟨rfl, exec_busrd_of_writeRow (errorRow_fits s.doubleSize) row_kept⟩

end Sys2Proof.Machine
end

section
/-! Mode change and initialization (spec 42_mode_and_init): `BEGIN` reads nothing of the device but its
mode, and `TOGGLE` is `BEGIN` in the other mode. A list of the two is therefore `BEGIN` in the mode that
the toggles among them leave. -/

namespace Sys2Proof.Machine

open Sys2Proof.Safety

/-- The last of two operations answers from the state which the first one left. -/
theorem execList_pair {i j : Instr} {s t : State} (executes : exec i s = .next t) :
    execList [i, j] s = exec j t := by
  rw [execList_cons executes, execList]
  cases exec j t <;> rfl

/-! ### `BEGIN` -/

/-- R104: the whole effect of `BEGIN`. -/
theorem exec_begin_blanks (s : State) :
    ∃ t, exec .begin s = .next t ∧ IsBlank s.doubleSize t ∧ Answered t .host .ok none ∧
      SameHostSide s t :=
  ⟨_, exec_begin s, isBlank_answerOk_initBlank .host none s, answered_answer ..,
    sameHostSide_answer .host .ok none (initBlank s)⟩

/-- Settles O28: the code's row of R65, and `InitBlank` in the mode it finds. -/
theorem beginBlanksAndKeepsTheMode : Obligations.BeginBlanksAndKeepsTheMode := by
  obtain ⟨-, -, -, -, -, -, begin_code⟩ := hostCodesFollowTheTable
  exact ⟨begin_code, exec_begin_blanks⟩

/-- R100: the buffer, the cursor and the past answer are all written over, so the outcome is that of
any state with the same mode and the same host side. -/
theorem exec_begin_congr {s t : State} (same_mode : t.doubleSize = s.doubleSize)
    (same_host : SameHostSide s t) : exec .begin t = exec .begin s := by
  obtain ⟨same_streams, same_pending⟩ := same_host
  rw [exec_begin, exec_begin]
  simp only [answerOk, answer, initBlank, loadCursor, same_mode, same_streams, same_pending]

/-- R32, R40: a blank buffer has one canonical form. -/
theorem buffer_eq_blankBuffer {m : Bool} {s : State} (canonical : StateInv s) (blank : IsBlank m s) :
    s.buffer = blankBuffer := by
  obtain ⟨canonical_buffer, -⟩ := canonical
  obtain ⟨-, -, cells_blank⟩ := blank
  exact bufferWf_ext canonical_buffer bufferWf_blankBuffer fun i inside =>
    (cells_blank i inside).trans (bufferRead_blankBuffer i inside).symm

theorem exec_begin_of_isBlank {m : Bool} {s : State} (canonical : StateInv s) (blank : IsBlank m s) :
    ∃ t, exec .begin s = .next t ∧ SameDevice s t := by
  have is_blankBuffer := buffer_eq_blankBuffer canonical blank
  obtain ⟨-, at_init, -⟩ := blank
  exact ⟨_, exec_begin s, is_blankBuffer.symm, at_init.symm, rfl⟩

/-! ### `TOGGLE` -/

/-- R105: `TOGGLE` is "complement `double_size`, then `BEGIN`". -/
theorem exec_toggle_eq_begin (s : State) : exec .toggle s = exec .begin (flipMode s) := by
  rw [exec_toggle, exec_begin]

/-- R101: the whole effect of `TOGGLE`. -/
theorem exec_toggle_blanks (s : State) :
    ∃ t, exec .toggle s = .next t ∧ IsBlank (!s.doubleSize) t ∧ Answered t .host .ok none ∧
      SameHostSide s t := by
  rw [exec_toggle_eq_begin]
  exact exec_begin_blanks (flipMode s)

/-- Settles O26: the code's row of R65, and `BEGIN` in the other mode. -/
theorem toggleGivesTheBlankStateOfTheOtherMode :
    Obligations.ToggleGivesTheBlankStateOfTheOtherMode := by
  obtain ⟨-, -, -, toggle_code, -⟩ := hostCodesFollowTheTable
  exact ⟨toggle_code, exec_toggle_blanks⟩

/-! ### One after the other -/

theorem execList_begin_begin (s : State) : execList [.begin, .begin] s = exec .begin s := by
  obtain ⟨t, begins, ⟨mode_kept, -⟩, -, host_kept⟩ := exec_begin_blanks s
  rw [execList_pair begins]
  exact exec_begin_congr mode_kept host_kept

theorem execList_begin_toggle (s : State) : execList [.begin, .toggle] s = exec .toggle s := by
  obtain ⟨t, begins, ⟨mode_kept, -⟩, -, host_kept⟩ := exec_begin_blanks s
  have same_flipped : (flipMode t).doubleSize = (flipMode s).doubleSize := congrArg not mode_kept
  rw [execList_pair begins, exec_toggle_eq_begin, exec_toggle_eq_begin]
  exact exec_begin_congr same_flipped host_kept

theorem execList_toggle_begin (s : State) : execList [.toggle, .begin] s = exec .toggle s := by
  obtain ⟨t, toggles, ⟨mode_flipped, -⟩, -, host_kept⟩ := exec_toggle_blanks s
  rw [execList_pair toggles, exec_toggle_eq_begin]
  exact exec_begin_congr (s := flipMode s) mode_flipped host_kept

/-- R103: the mode is complemented twice, so what two toggles do is what `BEGIN` does. -/
theorem execList_toggle_toggle (s : State) : execList [.toggle, .toggle] s = exec .begin s := by
  obtain ⟨t, toggles, ⟨mode_flipped, -⟩, -, host_kept⟩ := exec_toggle_blanks s
  have mode_back : (flipMode t).doubleSize = s.doubleSize := by
    rw [flipMode_doubleSize, mode_flipped, Bool.not_not]
  rw [execList_pair toggles, exec_toggle_eq_begin]
  exact exec_begin_congr mode_back host_kept

/-- Settles O27: two toggles are `BEGIN`, which blanks any state and keeps a canonical blank one. -/
theorem twoTogglesKeepTheModeAndBlank : Obligations.TwoTogglesKeepTheModeAndBlank := by
  constructor
  case left =>
    intro s
    obtain ⟨t, begins, blank, -⟩ := exec_begin_blanks s
    exact ⟨t, (execList_toggle_toggle s).trans begins, blank⟩
  case right =>
    intro m s canonical blank
    rw [execList_toggle_toggle]
    exact exec_begin_of_isBlank canonical blank

/-- Settles O29: one identity for each pair, and `TOGGLE` as `BEGIN` in the other mode. -/
theorem beginIsIdempotentAndAbsorbedByToggle : Obligations.BeginIsIdempotentAndAbsorbedByToggle := by
  intro s
  obtain ⟨t, begins, blank, -⟩ := exec_begin_blanks s
  exact ⟨execList_begin_begin s, ⟨t, begins, blank⟩, exec_toggle_eq_begin s,
    execList_begin_toggle s, execList_toggle_begin s⟩

end Sys2Proof.Machine
end

section
/-! Checkpoint and restore (spec 43_checkpoint). Both operations are read through one relation between a
state and a source: the source begins with the state's record (`checkpointRecord s <+: src`).
`CHECKPOINT` appends such bytes, a successful `RESTORE` leaves such a state, and a record determines its
device (R114). -/

namespace Sys2Proof.Machine

open Sys2Proof.Safety

/-! ### The cursor word (R11, R111) -/

theorem le16Bytes_cursor (c : Addr) :
    le16Bytes c.toNat = [c.extractLsb' 0 8, (c.extractLsb' 8 3).setWidth 8] := by
  have c_lt : c.toNat < 2048 := c.isLt
  have low : BitVec.ofNat 8 c.toNat = c.extractLsb' 0 8 := BitVec.eq_of_toNat_eq (by simp)
  have high : BitVec.ofNat 8 (c.toNat / 256) = (c.extractLsb' 8 3).setWidth 8 :=
    BitVec.eq_of_toNat_eq (by simp [Nat.shiftRight_eq_div_pow]; omega)
  rw [le16Bytes, low, high]

theorem le16Value_cursor (c : Addr) :
    le16Value (c.extractLsb' 0 8) ((c.extractLsb' 8 3).setWidth 8) = c.toNat := by
  have c_lt : c.toNat < 2048 := c.isLt
  simp [le16Value, Nat.shiftRight_eq_div_pow]
  omega

/-! ### The record (R111) -/

theorem le16Bytes_bufSize : le16Bytes Config.bufSize = [0x00#8, 0x08#8] := by decide

theorem checkpointRecord_eq (s : State) :
    checkpointRecord s = 0x01#8 :: 0x00#8 :: 0x08#8 :: modeByte s.doubleSize ::
      s.cursor.extractLsb' 0 8 :: (s.cursor.extractLsb' 8 3).setWidth 8 :: bufferBytes s.buffer := by
  simp only [checkpointRecord, Config.ckptVersion, le16Bytes_bufSize, le16Bytes_cursor,
    List.cons_append, List.nil_append]

theorem checkpointRecord_length (s : State) : (checkpointRecord s).length = 2054 := by
  simp [checkpointRecord_eq, bufferBytes_length, Config.bufSize]

theorem checkpointRecord_answerOk (p : Port) (v : Option Value) (s : State) :
    checkpointRecord (answerOk p v s) = checkpointRecord s := rfl

/-- The fields of R111 stand in their places in a source that begins with the record of a state. -/
theorem fields_of_record {s : State} {src : List Byte} (begins : checkpointRecord s <+: src) :
    src[0]? = some 0x01#8 ∧ src[1]? = some 0x00#8 ∧ src[2]? = some 0x08#8 ∧
      src[3]? = some (modeByte s.doubleSize) ∧ src[4]? = some (s.cursor.extractLsb' 0 8) ∧
      src[5]? = some ((s.cursor.extractLsb' 8 3).setWidth 8) ∧
      ∀ i, i < 2048 → src[6 + i]? = some (readCell s i) := by
  obtain ⟨tail, rfl⟩ := begins
  rw [checkpointRecord_eq]
  refine ⟨rfl, rfl, rfl, rfl, rfl, rfl, fun i inside => ?_⟩
  have inside_bytes : i < (bufferBytes s.buffer).length :=
    inside.trans_eq (bufferBytes_length s.buffer).symm
  simp only [Nat.add_comm 6 i, List.cons_append, List.getElem?_cons_succ]
  rw [List.getElem?_append_left inside_bytes, List.getElem?_eq_getElem inside_bytes,
    bufferBytes_getElem, readCell]

/-- A source that begins with a record passes the five checks of R112. -/
theorem validSource_of_record {s : State} {src : List Byte} (begins : checkpointRecord s <+: src) :
    ValidSource src := by
  obtain ⟨version, size_low, size_high, mode, -, cursor_high, -⟩ := fields_of_record begins
  have long : Config.ckptLen ≤ src.length := (checkpointRecord_length s).ge.trans begins.length_le
  have mode_names : src[3]? = some 0x00#8 ∨ src[3]? = some 0x01#8 := by
    rw [mode]
    cases s.doubleSize
    · exact .inl rfl
    · exact .inr rfl
  have high_lt : ((s.cursor.extractLsb' 8 3).setWidth 8).toNat < 8 := by
    simp
    omega
  exact ⟨long, version, size_low, size_high, mode_names, _, cursor_high, high_lt⟩

/-- R114: among canonical states a record determines buffer, cursor and mode. -/
theorem sameDevice_of_record_eq {s t : State} (canonical_s : bufferWf s.buffer = true)
    (canonical_t : bufferWf t.buffer = true) (same_record : checkpointRecord t = checkpointRecord s) :
    SameDevice s t := by
  simp only [checkpointRecord_eq, List.cons.injEq, true_and] at same_record
  obtain ⟨same_modeByte, same_low, same_high, same_cells⟩ := same_record
  have same_cursor : t.cursor.toNat = s.cursor.toNat := by
    rw [← le16Value_cursor, same_low, same_high, le16Value_cursor]
  have same_mode : t.doubleSize = s.doubleSize := by
    rw [Bool.eq_iff_iff, ← modeByte_eq_one_iff, same_modeByte, modeByte_eq_one_iff]
  simp only [bufferBytes, List.map_inj_left, List.mem_range] at same_cells
  exact ⟨bufferWf_ext canonical_t canonical_s same_cells, BitVec.eq_of_toNat_eq same_cursor,
    same_mode⟩

/-! ### `CHECKPOINT` -/

theorem sameHostSideBut_putStream (k : StreamId) (bytes : List Byte) (s : State) :
    SameHostSideBut k s (putStream k bytes s) :=
  ⟨fun _ other => streamOf_putStream_other other bytes s, rfl⟩

/-- R110: the whole effect of `CHECKPOINT`. -/
theorem exec_checkpoint_appends (k : StreamId) (s : State) :
    ∃ t, exec (.checkpoint k) s = .next t ∧ streamOf t k = streamOf s k ++ checkpointRecord s ∧
      SameDevice s t ∧ SameHostSideBut k s t ∧ Answered t .host .ok none :=
  ⟨_, exec_checkpoint k s, streamOf_putStream_same .., ⟨rfl, rfl, rfl⟩,
    sameHostSideBut_putStream k _ s, answered_answer ..⟩

/-- Settles O30: what is appended is the state's record, and its fields are R111's. -/
theorem checkpointAppendsTheRecord : Obligations.CheckpointAppendsTheRecord := by
  obtain ⟨-, -, -, -, checkpoint_code, -⟩ := hostCodesFollowTheTable
  refine ⟨checkpoint_code, fun k s => ?_⟩
  obtain ⟨t, executes, appended, device_kept, host_kept, answered⟩ := exec_checkpoint_appends k s
  obtain ⟨version, size_low, size_high, mode, cursor_low, cursor_high, cells⟩ :=
    fields_of_record (List.prefix_refl (checkpointRecord s))
  exact ⟨t, checkpointRecord s, executes, appended, checkpointRecord_length s, version, size_low,
    size_high, mode, cursor_low, cursor_high, cells, device_kept, host_kept, answered⟩

/-! ### `RESTORE` -/

/-- Listing `BUF_SIZE` bytes as cells and reading them all gives the bytes back. -/
theorem bufferBytes_ofBytesFrom {bytes : List Byte} (full : bytes.length = Config.bufSize) :
    bufferBytes (bufferOfBytesFrom 0 bytes) = bytes := by
  refine List.ext_getElem ((bufferBytes_length _).trans full.symm) fun i _ inside => ?_
  simp [bufferBytes_getElem, bufferRead_ofBytesFrom, inside]

/-- The record of a committed staging area is the bytes it was staged from. -/
theorem checkpointRecord_commit {g : Staged} {lo hi : Byte} (full : g.cells.length = Config.bufSize)
    (cursor_lt : le16Value lo hi < Config.bufSize)
    (cursor : g.cursor = BitVec.ofNat 11 (le16Value lo hi)) (s : State) :
    checkpointRecord (commit g s) =
      [0x01#8, 0x00#8, 0x08#8, modeByte g.mode, lo, hi] ++ g.cells := by
  have cursorWord : le16Bytes g.cursor.toNat = [lo, hi] := by
    rw [cursor, toNat_address cursor_lt, le16Bytes_le16Value]
  simp only [checkpointRecord, Config.ckptVersion, le16Bytes_bufSize, commit_doubleSize, commit_cursor,
    cursorWord, commit_buffer, bufferBytes_ofBytesFrom full, List.cons_append, List.nil_append]

theorem restoreReads_of_validSource {src : List Byte} (valid : ValidSource src) :
    restoreReads src = 2054 := by
  obtain ⟨-, version, size_low, size_high, mode, hi, cursor_high, hi_lt⟩ := valid
  have mode_passes : ¬ (src[3]? ≠ some 0x00#8 ∧ src[3]? ≠ some 0x01#8) := by tauto
  simp [restoreReads, version, size_low, size_high, mode_passes, cursor_high, hi_lt, Config.ckptLen]

/-- R112: a valid source begins with the record of the state which `RESTORE` leaves. -/
theorem exec_restore_loads {k : StreamId} {s : State} (valid : ValidSource (streamOf s k)) :
    ∃ t, exec (.restore k) s = .next t ∧ checkpointRecord t <+: streamOf s k ∧
      bufferWf t.buffer = true ∧ streamOf t k = (streamOf s k).drop (restoreReads (streamOf s k)) ∧
      SameHostSideBut k s t ∧ Answered t .host .ok none := by
  obtain ⟨g, lo, hi, executes, cells, cursor_low, cursor_high, cursor_lt, cursor, mode⟩ :=
    exec_restore_valid valid
  obtain ⟨long, version, size_low, size_high, -⟩ := valid
  have full : g.cells.length = Config.bufSize := by
    simp only [Config.ckptLen] at long
    simp only [cells, List.length_take, List.length_drop, Config.bufSize]
    omega
  have header : (streamOf s k).take 6 = [0x01#8, 0x00#8, 0x08#8, modeByte g.mode, lo, hi] := by
    simp [List.take_add_one, version, size_low, size_high, mode, cursor_low, cursor_high]
  refine ⟨_, executes, ?_, bufferWf_ofBytesFrom g.cells full.le, streamOf_putStream_same ..,
    sameHostSideBut_putStream k _ s, answered_answer ..⟩
  rw [checkpointRecord_answerOk, checkpointRecord_commit full cursor_lt cursor, ← header, cells,
    ← List.take_add]
  exact List.take_prefix ..

/-- R112, R122: from any other source `RESTORE` changes nothing of the device. -/
theorem exec_restore_refuses {k : StreamId} {s : State} (invalid : ¬ ValidSource (streamOf s k)) :
    ∃ t, exec (.restore k) s = .next t ∧ SameDevice s t ∧
      streamOf t k = (streamOf s k).drop (restoreReads (streamOf s k)) ∧
      SameHostSideBut k s t ∧ Answered t .host .corruptCheckpoint none :=
  ⟨_, exec_restore_invalid invalid, ⟨rfl, rfl, rfl⟩, streamOf_putStream_same ..,
    sameHostSideBut_putStream k _ s, answered_answer ..⟩

/-- Settles O31: the fields are read off the record that the source begins with. -/
theorem restoreLoadsAValidRecordOrNothing : Obligations.RestoreLoadsAValidRecordOrNothing := by
  obtain ⟨-, -, -, -, -, restore_code, -⟩ := hostCodesFollowTheTable
  refine ⟨restore_code, ?valid, ?invalid⟩
  case valid =>
    intro k s valid
    obtain ⟨t, executes, begins, -, consumed, host_kept, answered⟩ := exec_restore_loads valid
    obtain ⟨-, -, -, mode, cursor_low, cursor_high, cells⟩ := fields_of_record begins
    have mode_iff : t.doubleSize = true ↔ (streamOf s k)[3]? = some 0x01#8 := by
      rw [mode, Option.some.injEq, modeByte_eq_one_iff]
    rw [restoreReads_of_validSource valid] at consumed
    exact ⟨t, _, _, executes, cells, cursor_low, cursor_high, (le16Value_cursor t.cursor).symm,
      mode_iff, consumed, host_kept, answered⟩
  case invalid =>
    intro k s invalid
    obtain ⟨t, executes, device_kept, -, host_kept, answered⟩ := exec_restore_refuses invalid
    exact ⟨t, executes, device_kept, host_kept, answered⟩

/-- Settles O32: the source is left less its reads, whether it is valid or not. -/
theorem restoreConsumesUpToTheFirstFailingCheck :
    Obligations.RestoreConsumesUpToTheFirstFailingCheck := by
  intro k s
  rcases em (ValidSource (streamOf s k)) with valid | invalid
  · obtain ⟨t, executes, -, -, consumed, -⟩ := exec_restore_loads valid
    exact ⟨t, executes, consumed⟩
  · obtain ⟨t, executes, -, consumed, -⟩ := exec_restore_refuses invalid
    exact ⟨t, executes, consumed⟩

/-! ### Round trip and damage (R114, R115) -/

/-- A source that is exactly as long as a record begins with no record but itself. -/
theorem record_eq_of_prefix {s : State} {src : List Byte} (begins : checkpointRecord s <+: src)
    (exact_length : src.length = 2054) : checkpointRecord s = src :=
  begins.eq_of_length ((checkpointRecord_length s).trans exact_length.symm)

/-- Settles O33: the state restored from a record has that record, and a record determines its
device. -/
theorem checkpointThenRestoreReproducesTheState :
    Obligations.CheckpointThenRestoreReproducesTheState := by
  constructor
  case left =>
    intro s k s1 t j canonical sink_empty executes source
    obtain ⟨canonical_buffer, -⟩ := canonical
    obtain ⟨s1', appends, appended, -⟩ := exec_checkpoint_appends k s
    obtain rfl := Host.Outcome.next.inj (appends.symm.trans executes)
    rw [appended, sink_empty, List.nil_append] at source
    have valid : ValidSource (streamOf t j) :=
      source ▸ validSource_of_record (List.prefix_refl (checkpointRecord s))
    obtain ⟨u, restores, begins, canonical_u, consumed, -, answered⟩ := exec_restore_loads valid
    rw [restoreReads_of_validSource valid] at consumed
    rw [source] at begins consumed
    have same_record := record_eq_of_prefix begins (checkpointRecord_length s)
    exact ⟨u, restores, sameDevice_of_record_eq canonical_buffer canonical_u same_record, answered,
      consumed.trans (List.drop_of_length_le (checkpointRecord_length s).le)⟩
  case right =>
    intro s k j t valid exact_length executes sink_empty
    obtain ⟨t', restores, begins, -⟩ := exec_restore_loads valid
    obtain rfl := Host.Outcome.next.inj (restores.symm.trans executes)
    obtain ⟨u, appends, appended, -⟩ := exec_checkpoint_appends j t'
    rw [sink_empty, List.nil_append, record_eq_of_prefix begins exact_length] at appended
    exact ⟨u, appends, appended⟩

/-- The checks cannot see a changed cell byte: they accept every one. -/
theorem validSource_set_cell {src : List Byte} (valid : ValidSource src) (i : Nat) (b : Byte) :
    ValidSource (src.set (6 + i) b) := by
  obtain ⟨long, version, size_low, size_high, mode, cursor⟩ := valid
  have header_kept (n : Nat) (in_header : n < 6) : (src.set (6 + i) b)[n]? = src[n]? :=
    List.getElem?_set_ne (by omega)
  simpa [ValidSource, header_kept] using ⟨long, version, size_low, size_high, mode, cursor⟩

/-- Nor a changed cursor word, as long as it is a cell index. -/
theorem validSource_set_cursor {src : List Byte} (valid : ValidSource src) (lo : Byte) {hi : Byte}
    (hi_lt : hi.toNat < 8) : ValidSource ((src.set 4 lo).set 5 hi) := by
  obtain ⟨long, version, size_low, size_high, mode, old_hi, in_source, -⟩ := valid
  obtain ⟨in_source, -⟩ := List.getElem?_eq_some_iff.1 in_source
  refine ⟨?_, ?_, ?_, ?_, ?_, hi, ?_, hi_lt⟩ <;> simpa [List.getElem?_set]

/-- R115: `RESTORE` from any source that passes the checks leaves the state whose record
it begins with. -/
theorem exec_restore_given {src : List Byte} (valid : ValidSource src) (k : StreamId) (s : State) :
    ∃ t, exec (.restore k) (putStream k src s) = .next t ∧ checkpointRecord t <+: src ∧
      Answered t .host .ok none := by
  have source : streamOf (putStream k src s) k = src := streamOf_putStream_same k src s
  obtain ⟨t, executes, begins, -, -, -, answered⟩ := exec_restore_loads (source.symm ▸ valid)
  exact ⟨t, executes, source ▸ begins, answered⟩

/-- Settles O34: a refused source changes nothing, and the checks pass over the two kinds of damage. -/
theorem corruptSourcesChangeNothing : Obligations.CorruptSourcesChangeNothing := by
  refine ⟨?refused, ?cell, ?cursor⟩
  case refused =>
    intro k s fails
    have invalid : ¬ ValidSource (streamOf s k) := by
      rintro ⟨long, version, rest⟩
      rcases fails with short | other_version | invalid
      · exact Nat.not_lt.2 long short
      · exact other_version version
      · exact invalid ⟨long, version, rest⟩
    obtain ⟨t, executes, device_kept, -, -, answered⟩ := exec_restore_refuses invalid
    exact ⟨t, executes, device_kept, answered⟩
  case cell =>
    intro k s b i valid inside
    obtain ⟨t, executes, begins, answered⟩ :=
      exec_restore_given (validSource_set_cell valid i b) k s
    obtain ⟨-, -, -, -, -, -, cells⟩ := fields_of_record begins
    obtain ⟨long, -⟩ := valid
    have in_source : 6 + i < (streamOf s k).length := by
      simp only [Config.ckptLen] at long
      omega
    have given := cells i inside
    rw [List.getElem?_set_self in_source] at given
    exact ⟨t, executes, answered, (Option.some.inj given).symm⟩
  case cursor =>
    intro k s lo hi valid hi_lt
    obtain ⟨t, executes, begins, answered⟩ :=
      exec_restore_given (validSource_set_cursor valid lo hi_lt) k s
    obtain ⟨-, -, -, -, cursor_low, cursor_high, -⟩ := fields_of_record begins
    obtain ⟨long, -⟩ := valid
    simp only [Config.ckptLen] at long
    rw [List.getElem?_set_ne (by decide), List.getElem?_set_self (by omega)] at cursor_low
    rw [List.getElem?_set_self (by rw [List.length_set]; omega)] at cursor_high
    refine ⟨t, executes, answered, ?_⟩
    rw [Option.some.inj cursor_low, Option.some.inj cursor_high]
    exact (le16Value_cursor t.cursor).symm

end Sys2Proof.Machine
end

section
/-! The conditions (spec 60_exceptions): which operations answer `OutOfRange`, and what it changes. -/

namespace Sys2Proof.Machine

open Sys2Proof.Safety

/-- A state records one answer. -/
theorem answered_unique {t : State} {p q : Port} {c d : Condition} {v u : Option Value}
    (one : Answered t p c v) (other : Answered t q d u) : p = q ∧ c = d ∧ v = u := by
  simpa [Answered] using one.symm.trans other

theorem statusCondition_ne_outOfRange (m : Bool) (text : List Byte) (x : Nat) :
    statusCondition m text ≠ .outOfRange x := by
  unfold statusCondition
  split <;> exact Condition.noConfusion

/-- R121: the answer `OutOfRange` determines the operation, up to the byte of a `BUSWR`, and the whole
state after it. -/
theorem exec_of_answered_outOfRange : ∀ i s t, exec i s = .next t →
    ∀ p x v, Answered t p (.outOfRange x) v →
      (i = .busrd x ∨ ∃ d, i = .buswr x d) ∧ ¬ x < Config.bufSize ∧
        t = raise .bus (.outOfRange x) s := by
  apply exec_inversion
  case buswrOutOfRange =>
    intro a d s outside p x v answered
    obtain ⟨-, same_condition, -⟩ := answered_unique (answered_answer ..) answered
    obtain rfl := Condition.outOfRange.inj same_condition
    exact ⟨.inr ⟨d, rfl⟩, outside, rfl⟩
  case busrdOutOfRange =>
    intro a s outside p x v answered
    obtain ⟨-, same_condition, -⟩ := answered_unique (answered_answer ..) answered
    obtain rfl := Condition.outOfRange.inj same_condition
    exact ⟨.inl rfl, outside, rfl⟩
  case status =>
    intro text s p x v answered
    obtain ⟨-, same_condition, -⟩ := answered_unique (answered_answer ..) answered
    exact absurd same_condition (statusCondition_ne_outOfRange _ _ _)
  all_goals
    intros
    rename_i answered
    simp [Answered] at answered

/-- R121, the other way: `BUSRD` and `BUSWR` at an address outside the buffer only answer. -/
theorem exec_outOfRange {i : Instr} {x : Nat} (latching : i = .busrd x ∨ ∃ d, i = .buswr x d)
    (outside : ¬ x < Config.bufSize) (s : State) :
    exec i s = .next (raise .bus (.outOfRange x) s) ∧ i.port = .bus := by
  rcases latching with rfl | ⟨d, rfl⟩
  · exact ⟨exec_busrd_outOfRange outside s, rfl⟩
  · exact ⟨exec_buswr_outOfRange outside d s, rfl⟩

/-- R64: the address of an operation that a bus word encodes is an 11-bit field, so a cell's. -/
theorem decode_bus_address_lt {w : BusWord} {i : Instr} {x : Nat} (decodes : decode (.bus w) = .ok i)
    (latching : i = .busrd x ∨ ∃ d, i = .buswr x d) : x < Config.bufSize := by
  have address_lt : (busA w).toNat < Config.bufSize := (busA w).isLt
  rcases decodeBus_cases w with ⟨-, -, h⟩ | ⟨-, -, -, h⟩ | ⟨-, -, -, h⟩ | ⟨-, -, -, -, h⟩ | ⟨-, h⟩
  case inr.inr.inr.inr => cases decodes.symm.trans h
  all_goals
    obtain rfl := Except.ok.inj (decodes.symm.trans h)
    simp at latching
  · exact latching ▸ address_lt
  · exact latching ▸ address_lt

/-- Settles O19: `OutOfRange` is the answer of a latching operation outside the buffer, the state after
it is the state before it but for the answer, and no bus word carries such an address. -/
theorem outOfRangeArisesOnlyFromWiderAddresses : Obligations.OutOfRangeArisesOnlyFromWiderAddresses := by
  refine ⟨fun i s t x v executes => ⟨?answered, ?outside⟩, ?unchanged, ?encoded⟩
  case answered =>
    intro answered
    obtain ⟨latching, outside, rfl⟩ := exec_of_answered_outOfRange i s t executes _ x v answered
    obtain ⟨-, -, no_value⟩ := answered_unique (answered_answer ..) answered
    exact ⟨Nat.not_lt.1 outside, no_value.symm, latching⟩
  case outside =>
    rintro ⟨outside, rfl, latching⟩
    obtain ⟨raises, bus_port⟩ := exec_outOfRange latching (Nat.not_lt.2 outside) s
    obtain rfl := Host.Outcome.next.inj (raises.symm.trans executes)
    exact bus_port ▸ answered_answer ..
  case unchanged =>
    intro i s t p x v executes answered
    obtain ⟨-, -, rfl⟩ := exec_of_answered_outOfRange i s t executes p x v answered
    exact ⟨sameDevice_answer .., sameHostSide_answer ..⟩
  case encoded =>
    intro w i s t x v decodes executes answered
    obtain ⟨latching, outside, -⟩ := exec_of_answered_outOfRange i s t executes .bus x v answered
    exact outside (decode_bus_address_lt decodes latching)

end Sys2Proof.Machine
end

section
/-! The encodings (spec 30_encoding): the decoder and the encoder are inverse to each other on the words
of the ports, the bus decoder is R63's table of matches and masks, and the reserved words are R69's. -/

namespace Sys2Proof.Machine

/-! ### The encoder -/

theorem encode_buswr {a : Nat} (legal : a < Config.bufSize) (d : Byte) :
    encode (.buswr a d) = .bus (busWord true true (BitVec.ofNat 11 a) d) := by
  simp [encode, legal]

theorem encode_busrd {a : Nat} (legal : a < Config.bufSize) :
    encode (.busrd a) = .bus (busWord true false (BitVec.ofNat 11 a) 0#8) := by
  simp [encode, legal]

/-- R64: an address that no bus word carries is presented as a call of the bus contract. -/
theorem encode_buswr_outside {a : Nat} (outside : ¬ a < Config.bufSize) (d : Byte) :
    encode (.buswr a d) = .memWrite a d := by
  simp [encode, outside]

theorem encode_busrd_outside {a : Nat} (outside : ¬ a < Config.bufSize) :
    encode (.busrd a) = .memRead a := by
  simp [encode, outside]

/-- R61, R68: the encoder presents every operation on the port it belongs to. -/
theorem encode_port (i : Instr) : (encode i).port = i.port := by
  cases i with
  | buswr a d => exact Laws.EncodedPort.buswr a d
  | busrd a => exact Laws.EncodedPort.busrd a
  | _ => rfl

/-! ### Decoding what was encoded -/

theorem decode_encode (i : Instr) : decode (encode i) = .ok i := by
  obtain ⟨size, status, error, toggle, checkpoint, restore, begin⟩ := hostCodesFollowTheTable
  cases i with
  | buswr a d =>
    by_cases legal : a < Config.bufSize
    · rw [encode_buswr legal, decode_busWord_latching_write, toNat_address legal]
    · rw [encode_buswr_outside legal, decode]
  | busrd a =>
    by_cases legal : a < Config.bufSize
    · rw [encode_busrd legal, decode_busWord_latching_read, toNat_address legal]
    · rw [encode_busrd_outside legal, decode]
  | wrc d => exact decode_busWord_plain_write d
  | rdc => exact decode_busWord_plain_read
  | size => exact size
  | status text => exact status text
  | error text => exact error text
  | toggle => exact toggle
  | checkpoint sink => exact checkpoint sink
  | restore source => exact restore source
  | begin => exact begin

/-- R64: the ports' words carry every well-formed operation. -/
theorem encode_of_wellFormed {i : Instr} (well_formed : i.wellFormed = true) :
    (∃ w, encode i = .bus w) ∨ ∃ c o, encode i = .host c o := by
  cases i with
  | buswr a d => exact .inl ⟨_, encode_buswr (of_decide_eq_true well_formed) d⟩
  | busrd a => exact .inl ⟨_, encode_busrd (of_decide_eq_true well_formed)⟩
  | wrc d => exact .inl ⟨_, rfl⟩
  | rdc => exact .inl ⟨_, rfl⟩
  | _ => exact .inr ⟨_, _, rfl⟩

/-- Settles O9: operation by operation, the fields of a word are those it is made of. -/
theorem decodeOfEncodeIsTheOperation : Obligations.DecodeOfEncodeIsTheOperation :=
  fun i => ⟨decode_encode i, encode_of_wellFormed⟩

/-! ### Encoding what was decoded -/

/-- A bus word that decodes is the word of its own fields, and what those do not say is zero. -/
theorem encode_of_decode_bus {w : BusWord} {i : Instr} (decodes : decode (.bus w) = .ok i) :
    encode i = .bus w ∧ i.wellFormed = true := by
  have fields := busWord_fields w
  have address_lt : (busA w).toNat < Config.bufSize := (busA w).isLt
  have address : BitVec.ofNat 11 (busA w).toNat = busA w := by simp
  rcases decodeBus_cases w with ⟨l, r, h⟩ | ⟨l, r, d, h⟩ | ⟨l, r, a, h⟩ | ⟨l, r, a, d, h⟩ | ⟨-, h⟩
  case inr.inr.inr.inr => cases decodes.symm.trans h
  all_goals obtain rfl := Except.ok.inj (decodes.symm.trans h)
  · rw [l, r] at fields
    rw [encode_buswr address_lt, address, fields]
    exact ⟨rfl, decide_eq_true address_lt⟩
  · rw [l, r, d] at fields
    rw [encode_busrd address_lt, address, fields]
    exact ⟨rfl, decide_eq_true address_lt⟩
  · rw [l, r, a] at fields
    exact ⟨congrArg Request.bus fields, rfl⟩
  · rw [l, r, a, d] at fields
    exact ⟨congrArg Request.bus fields, rfl⟩

theorem encode_of_decode_host {c : Command} {o : HostOperand} {i : Instr}
    (decodes : decode (.host c o) = .ok i) : encode i = .host c o ∧ i.wellFormed = true := by
  rcases decodeHost_cases c o with ⟨j, h, encodes, well_formed, -⟩ | ⟨h, -⟩ | ⟨h, -⟩
  · obtain rfl := Except.ok.inj (decodes.symm.trans h)
    exact ⟨encodes, well_formed⟩
  · cases decodes.symm.trans h
  · cases decodes.symm.trans h

/-- Settles O10: port by port, through the decoder's cases. -/
theorem encodeOfDecodeIsThePortWord : Obligations.EncodeOfDecodeIsThePortWord :=
  ⟨fun _ _ => encode_of_decode_bus, fun _ _ _ => encode_of_decode_host⟩

/-- R61, R86: what arrives at a port decodes to an operation of that port. -/
theorem decode_port {r : Request} {i : Instr} (decodes : decode r = .ok i) : i.port = r.port := by
  cases r with
  | bus w => rw [← encode_port, (encode_of_decode_bus decodes).left]
  | host c o => rw [← encode_port, (encode_of_decode_host decodes).left]
  | memWrite a d =>
    obtain rfl := Except.ok.inj decodes
    rfl
  | memRead a =>
    obtain rfl := Except.ok.inj decodes
    rfl

/-! ### Match and mask (R63) -/

/-- A word is its four fields. -/
theorem busWord_ext_iff {v w : BusWord} :
    w = v ↔ busL w = busL v ∧ busW w = busW v ∧ busA w = busA v ∧ busD w = busD v := by
  refine ⟨fun same => same ▸ ⟨rfl, rfl, rfl, rfl⟩, ?_⟩
  rintro ⟨l, r, a, d⟩
  rw [← busWord_fields w, ← busWord_fields v, l, r, a, d]

/-- A mask applies to each field by itself. -/
theorem and_mask_eq_iff {w mask pattern : BusWord} : w &&& mask = pattern ↔
    (busL w && busL mask) = busL pattern ∧ (busW w && busW mask) = busW pattern ∧
      busA w &&& busA mask = busA pattern ∧ busD w &&& busD mask = busD pattern := by
  simp only [busWord_ext_iff, busL, busW, busA, busD, BitVec.getLsbD_and, BitVec.extractLsb'_and]

theorem byte_and_ones (d : Byte) : d &&& 255#8 = d := BitVec.and_allOnes

theorem addr_and_ones (a : Addr) : a &&& 2047#11 = a := BitVec.and_allOnes

section Table

variable (w : BusWord)

theorem matches_buswr : w &&& 0x180000#21 = 0x180000#21 ↔ busL w = true ∧ busW w = true := by
  simp [and_mask_eq_iff, busL, busW, busA, busD]

theorem matches_busrd : w &&& 0x1800FF#21 = 0x100000#21 ↔
    busL w = true ∧ busW w = false ∧ busD w = 0#8 := by
  simp [and_mask_eq_iff, busL, busW, busA, busD, byte_and_ones]

theorem matches_wrc : w &&& 0x1FFF00#21 = 0x080000#21 ↔
    busL w = false ∧ busW w = true ∧ busA w = 0#11 := by
  simp [and_mask_eq_iff, busL, busW, busA, busD, addr_and_ones]

theorem matches_rdc : w &&& 0x1FFFFF#21 = 0x000000#21 ↔
    busL w = false ∧ busW w = false ∧ busA w = 0#11 ∧ busD w = 0#8 := by
  simp [and_mask_eq_iff, busL, busW, busA, busD, addr_and_ones, byte_and_ones]

theorem busA_toNat : (busA w).toNat = w.toNat / 256 % 2048 := by
  simp [busA, Nat.shiftRight_eq_div_pow]

theorem busD_eq_ofNat : busD w = BitVec.ofNat 8 w.toNat :=
  BitVec.eq_of_toNat_eq (by simp [busD])

end Table

/-- Settles O11: each row of the table is one case of the decoder, told by the fields it masks. -/
theorem busWordsFollowTheMatchAndMaskTable : Obligations.BusWordsFollowTheMatchAndMaskTable := by
  intro w
  simp only [matches_buswr, matches_busrd, matches_wrc, matches_rdc, ← busA_toNat, ← busD_eq_ofNat]
  rcases decodeBus_cases w with ⟨l, r, h⟩ | ⟨l, r, d, h⟩ | ⟨l, r, a, h⟩ | ⟨l, r, a, d, h⟩ | ⟨fails, h⟩
  · simp [decode, h, l, r]
  · simp [decode, h, l, r, d]
  · simp [decode, h, l, r, a]
  · simp [decode, h, l, r, a, d]
  · rcases fails with ⟨l, a⟩ | ⟨r, d⟩
    · simp [decode, h, l, a]
    · simp [decode, h, r, d]

/-- Settles O13: the eight words by computation. -/
theorem writtenOutWordsDecode : Obligations.WrittenOutWordsDecode := by
  unfold Obligations.WrittenOutWordsDecode
  decide

/-! ### Reserved encodings (R69) -/

theorem decodeBus_reserved_iff (w : BusWord) : decodeBus w = .error (.reservedBusWord w) ↔
    (busL w = false ∧ busA w ≠ 0#11) ∨ (busW w = false ∧ busD w ≠ 0#8) := by
  rcases decodeBus_cases w with ⟨l, r, h⟩ | ⟨l, r, d, h⟩ | ⟨l, r, a, h⟩ | ⟨l, r, a, d, h⟩ | ⟨fails, h⟩
  · simp [h, l, r]
  · simp [h, l, d]
  · simp [h, r, a]
  · simp [h, a, d]
  · simp only [h, fails]

theorem decodeHost_reserved_iff (c : Command) (o : HostOperand) :
    decodeHost c o = .error (.reservedHostCode c) ↔ c.toNat = 0 ∨ 8 ≤ c.toNat := by
  refine ⟨fun refuses => ?_, fun reserved => decodeHost_reserved reserved o⟩
  rcases decodeHost_cases c o with ⟨j, h, -⟩ | ⟨h, -⟩ | ⟨-, reserved⟩
  · cases refuses.symm.trans h
  · cases refuses.symm.trans h
  · exact reserved

end Sys2Proof.Machine
end

section
/-! Rules over all operations: every operation completes with an answer of the table (spec 60_exceptions
R124, R125), none reads a past answer (10_state R29), and what each may change of the cells, the cursor,
the mode and the streams. Each is one reading of the inversion of `exec`. -/

namespace Sys2Proof.Machine

open Sys2Proof.Safety

/-! ### Answers -/

/-- R125, R128: no condition is a fault, and no operation is refused. -/
theorem exec_completes (i : Instr) (s : State) : ∃ t, exec i s = .next t := by
  cases i with
  | buswr a d =>
    by_cases legal : a < Config.bufSize
    · exact ⟨_, exec_buswr legal d s⟩
    · exact ⟨_, exec_buswr_outOfRange legal d s⟩
  | busrd a =>
    by_cases legal : a < Config.bufSize
    · exact ⟨_, exec_busrd legal s⟩
    · exact ⟨_, exec_busrd_outOfRange legal s⟩
  | restore source =>
    rcases exec_restore_cases source s with ⟨rest, -, runs⟩ | ⟨g, rest, -, runs⟩
    · exact ⟨_, runs⟩
    · exact ⟨_, runs⟩
  | _ => exact ⟨_, rfl⟩

/-- No operation touches the operations still to come. -/
theorem exec_keeps_pending : ∀ i s t, exec i s = .next t → t.pending = s.pending := by
  apply exec_inversion
  all_goals
    intros
    rfl

/-- R71, R123, R124: the answer of an operation, at its own port, by its row of the table. -/
theorem exec_answers : ∀ i s t, exec i s = .next t →
    ∃ c v, Answered t i.port c v ∧ mayAnswer i c = true ∧ valueFits i c v := by
  apply exec_inversion
  case buswrOutOfRange => exact fun a d s _ => ⟨_, _, rfl, by simp [mayAnswer], rfl⟩
  case busrdOutOfRange => exact fun a s _ => ⟨_, _, rfl, by simp [mayAnswer], rfl⟩
  case busrd => exact fun a s _ => ⟨_, _, rfl, by simp [mayAnswer], _, rfl⟩
  case rdc => exact fun s => ⟨_, _, rfl, rfl, _, rfl⟩
  case status =>
    intro text s
    refine ⟨_, _, rfl, ?_, rfl⟩
    by_cases overflows : cols s.doubleSize < text.length <;>
      simp [mayAnswer, statusCondition, overflows]
  all_goals
    intros
    exact ⟨_, _, rfl, by simp [mayAnswer], rfl⟩

/-- Settles O35: the state it completes in is the inversion's, with the answer and the list of issued
operations read off it. -/
theorem everyOperationCompletesWithAnAnswer : Obligations.EveryOperationCompletesWithAnAnswer := by
  intro i s
  obtain ⟨t, executes⟩ := exec_completes i s
  obtain ⟨c, v, answered, -⟩ := exec_answers i s t executes
  exact ⟨t, c, v, executes, answered, exec_keeps_pending i s t executes⟩

/-- Settles O36: the one answer a state records is the table's. -/
theorem answersFollowTheTable : Obligations.AnswersFollowTheTable := by
  intro i s t p c v executes answered
  obtain ⟨c', v', by_table, may, fits⟩ := exec_answers i s t executes
  obtain ⟨-, rfl, rfl⟩ := answered_unique by_table answered
  exact ⟨may, fits⟩

/-- Settles O37: R120's row of codes. -/
theorem conditionCodesAreTheTaxonomysOrder : Obligations.ConditionCodesAreTheTaxonomysOrder :=
  ⟨rfl, fun _ => rfl, rfl, rfl⟩

/-- R29: every operation writes its answer over the past one and reads nothing of it. -/
theorem exec_ignores_response (i : Instr) (s : State) (r : Option Response) :
    exec i { s with response := r } = exec i s := by
  cases i with
  | buswr a d =>
    by_cases legal : a < Config.bufSize
    · rw [exec_buswr legal, exec_buswr legal]
      rfl
    · rw [exec_buswr_outOfRange legal, exec_buswr_outOfRange legal]
      rfl
  | busrd a =>
    by_cases legal : a < Config.bufSize
    · rw [exec_busrd legal, exec_busrd legal]
      rfl
    · rw [exec_busrd_outOfRange legal, exec_busrd_outOfRange legal]
      rfl
  | restore source =>
    have same_source : streamOf { s with response := r } source = streamOf s source := rfl
    simp only [exec, execRestore, same_source]
    rcases readRecord (streamOf s source) with ⟨_ | g, rest⟩ <;> rfl
  | _ => rfl

/-! ### The mode and the streams -/

/-- R42: only `CHECKPOINT` and `RESTORE` change a stream, and only the one they name. -/
theorem exec_streams_cases : ∀ i s t, exec i s = .next t →
    t.streams = s.streams ∨
      ∃ k bytes, (i = .checkpoint k ∨ i = .restore k) ∧ t.streams = (putStream k bytes s).streams := by
  apply exec_inversion
  case checkpoint => exact fun k s => .inr ⟨k, _, .inl rfl, rfl⟩
  case restoreInvalid => exact fun k s rest _ => .inr ⟨k, rest, .inr rfl, rfl⟩
  case restoreValid =>
    intro k s rest
    intros
    exact .inr ⟨k, rest, .inr rfl, rfl⟩
  all_goals
    intros
    exact .inl rfl

/-- The host port's operations that change the mode or a stream are no operations of the bus port. -/
theorem exec_bus_keeps_mode_and_streams {i : Instr} {s t : State} (bus_port : i.port = .bus)
    (executes : exec i s = .next t) : t.doubleSize = s.doubleSize ∧ t.streams = s.streams := by
  constructor
  · rcases exec_doubleSize_cases i s t executes with kept | rfl | ⟨k, rfl⟩
    · exact kept
    · cases bus_port
    · cases bus_port
  · rcases exec_streams_cases i s t executes with kept | ⟨k, bytes, rfl | rfl, -⟩
    · exact kept
    · cases bus_port
    · cases bus_port

/-- Settles O39: the decoder keeps to the port, and the bus port's operations to cells and cursor. -/
theorem busPortReachesOnlyCellsAndCursor : Obligations.BusPortReachesOnlyCellsAndCursor :=
  ⟨fun _ _ => decode_port, fun _ _ _ => exec_bus_keeps_mode_and_streams⟩

/-- Settles O40: in the state with another mode each bus operation has the same equation, and the mode
stands in neither its answer nor its cells; the operations of the host port are excluded. -/
theorem busPortCannotTellTheMode : Obligations.BusPortCannotTellTheMode := by
  suffices same : ∀ i s t, exec i s = .next t → i.port = .bus → ∀ m,
      exec i { s with doubleSize := m } = .next { t with doubleSize := m } from
    fun i s t m bus_port executes => same i s t executes bus_port m
  apply exec_inversion
  case buswr => exact fun _ d _ legal _ _ => exec_buswr legal d _
  case buswrOutOfRange => exact fun _ d _ outside _ _ => exec_buswr_outOfRange outside d _
  case busrd => exact fun _ _ legal _ _ => exec_busrd legal _
  case busrdOutOfRange => exact fun _ _ outside _ _ => exec_busrd_outOfRange outside _
  case wrc => exact fun d _ _ _ => exec_wrc d _
  case rdc => exact fun _ _ _ => exec_rdc _
  all_goals
    intros
    rename_i bus_port _
    cases bus_port

/-! ### The cursor -/

/-- Settles O42: a latching operation loads its address, `InitBlank` loads `CURSOR_INIT`, a successful
`RESTORE` the recorded word; in the other cases the cursor stays. -/
theorem cursorIsOnlyLoadedWhole : Obligations.CursorIsOnlyLoadedWhole := by
  apply exec_inversion
  case buswr => exact fun a d s legal => .inr (.inl ⟨a, legal, .inr ⟨d, rfl⟩, toNat_address legal⟩)
  case busrd => exact fun a s legal => .inr (.inl ⟨a, legal, .inl rfl, toNat_address legal⟩)
  case begin => exact fun s => .inr (.inr (.inl ⟨.inl rfl, rfl⟩))
  case toggle => exact fun s => .inr (.inr (.inl ⟨.inr rfl, rfl⟩))
  case restoreValid =>
    intro k s rest g lo hi _ cursor_low cursor_high cursor_lt cursor _
    have loaded : g.cursor.toNat = le16Value lo hi := by rw [cursor, toNat_address cursor_lt]
    exact .inr (.inr (.inr ⟨k, lo, hi, rfl, rfl, cursor_low, cursor_high, loaded⟩))
  all_goals
    intros
    exact .inl rfl

/-! ### The cells -/

/-- A frame read the other way: a cell that changed is one of the cells that may. -/
theorem inside_of_cell_changed {base n a : Nat} {s t : State} (kept : SameCellsOutside base n s t)
    (changed : readCell t a ≠ readCell s a) : base ≤ a ∧ a < base + n := by
  by_contra outside
  exact changed (kept a (by omega))

/-- Settles O43: the frame of each writing operation says where a changed cell lies, and the operations
not named keep every cell. -/
theorem onlyNamedOperationsWriteACell : Obligations.OnlyNamedOperationsWriteACell := by
  intro i s t a
  revert i s t
  apply exec_inversion
  case buswr =>
    intro b d s legal changed
    obtain ⟨t, executes, -, -, others_kept, -⟩ := exec_buswr_stores legal d s
    obtain rfl := Host.Outcome.next.inj ((exec_buswr legal d s).symm.trans executes)
    have inside := inside_of_cell_changed others_kept changed
    obtain rfl : a = b := by omega
    exact .inl ⟨d, rfl⟩
  case wrc =>
    intro d s changed
    have inside := inside_of_cell_changed (sameCellsOutside_storeAtCursor d s) changed
    exact .inr (.inl ⟨d, rfl, by omega⟩)
  case status =>
    intro text s changed
    have inside := inside_of_cell_changed (sameCellsOutside_writeRow _ _ text s) changed
    exact .inr (.inr (.inl ⟨text, rfl, inside⟩))
  case error =>
    intro text s changed
    have inside := inside_of_cell_changed (sameCellsOutside_writeRow _ _ text s) changed
    exact .inr (.inr (.inr (.inl ⟨text, rfl, inside⟩)))
  case begin => exact fun s _ => .inr (.inr (.inr (.inr (.inl rfl))))
  case toggle => exact fun s _ => .inr (.inr (.inr (.inr (.inr (.inl rfl)))))
  case restoreValid =>
    intro k
    intros
    exact .inr (.inr (.inr (.inr (.inr (.inr ⟨k, rfl, rfl⟩)))))
  all_goals
    intros
    rename_i changed
    exact absurd rfl changed

/-! ### Reads (20_memory R46) -/

theorem exec_read_keeps_cells {i : Instr} {s t : State}
    (reads : (∃ a, i = .busrd a) ∨ i = .rdc ∨ i = .size ∨ ∃ k, i = .checkpoint k)
    (executes : exec i s = .next t) :
    SameCells s t ∧ t.doubleSize = s.doubleSize ∧ ((∀ a, i ≠ .busrd a) → t.cursor = s.cursor) := by
  rcases reads with ⟨a, rfl⟩ | rfl | rfl | ⟨k, rfl⟩
  case inl =>
    by_cases legal : a < Config.bufSize
    · obtain rfl := Host.Outcome.next.inj ((exec_busrd legal s).symm.trans executes)
      exact ⟨fun _ => rfl, rfl, fun not_busrd => absurd rfl (not_busrd a)⟩
    · obtain rfl := Host.Outcome.next.inj ((exec_busrd_outOfRange legal s).symm.trans executes)
      exact ⟨fun _ => rfl, rfl, fun _ => rfl⟩
  all_goals
    obtain rfl := Host.Outcome.next.inj executes
    exact ⟨fun _ => rfl, rfl, fun _ => rfl⟩

/-- The second `BUSRD` finds the cursor loaded and the same cell, or is out of range as the first. -/
theorem execList_busrd_busrd (a : Nat) (s : State) :
    execList [.busrd a, .busrd a] s = exec (.busrd a) s := by
  by_cases legal : a < Config.bufSize
  · rw [execList_pair (exec_busrd legal s), exec_busrd legal, exec_busrd legal]
    rfl
  · rw [execList_pair (exec_busrd_outOfRange legal s), exec_busrd_outOfRange legal,
      exec_busrd_outOfRange legal]
    rfl

theorem execList_rdc_rdc (s : State) : execList [.rdc, .rdc] s = exec .rdc s := by
  rw [execList_pair (exec_rdc s), exec_rdc, exec_rdc]
  rfl

/-- Settles O44: each read answers from cells that it leaves as they are. -/
theorem readsChangeNoCellAndRepeat : Obligations.ReadsChangeNoCellAndRepeat :=
  ⟨fun _ _ _ => exec_read_keeps_cells, execList_busrd_busrd, execList_rdc_rdc⟩

end Sys2Proof.Machine
end

section
/-! The step and the run (spec 00_scope R12, R13, 10_state R21): what one step does, the invariant it
keeps, and the run of the operations issued. -/

namespace Sys2Proof.Machine

open Sys2Proof.Safety

/-! ### One step -/

theorem step_of_nothing_issued {s : State} (idle : s.pending = []) : step s = .next s := by
  simp only [step, takeRequest, idle]

theorem step_of_decodes {s : State} {r : Request} {rest : List Request} {i : Instr}
    (issued : s.pending = r :: rest) (decodes : decode r = .ok i) :
    step s = exec i { s with pending := rest } := by
  simp only [step, takeRequest, issued, decodes]

theorem step_of_reserved {s : State} {r : Request} {rest : List Request} {e : DecodeError}
    (issued : s.pending = r :: rest) (refuses : decode r = .error e) :
    step s = .refused (refusalOf e) := by
  simp only [step, takeRequest, issued, refuses]

/-- Settles O4: the step on a presentation that decodes. -/
theorem stepRunsTheDecodedOperation : Obligations.StepRunsTheDecodedOperation :=
  fun _ _ _ _ => step_of_decodes

/-- Settles O5: the step on an empty list. -/
theorem stepIsIdleWithNothingIssued : Obligations.StepIsIdleWithNothingIssued :=
  fun _ => step_of_nothing_issued

/-! ### The invariant -/

/-- Settles O2: an empty list is canonical. -/
theorem resetMeetsTheInvariant : Obligations.ResetMeetsTheInvariant := ⟨bufferWf_nil, rfl⟩

/-- R22: every write of an operation but `RESTORE` lies in the cell space. -/
theorem exec_bufferWf_cases : ∀ i s t, exec i s = .next t → bufferWf s.buffer = true →
    bufferWf t.buffer = true ∨ ∃ k, i = .restore k := by
  apply exec_inversion
  case buswr =>
    intro a d s legal canonical
    exact .inl (bufferWf_write canonical (cursor_lt (loadCursor (BitVec.ofNat 11 a) s)) d)
  case wrc => exact fun d s canonical => .inl (bufferWf_write canonical (cursor_lt s) d)
  case status =>
    intro text s canonical
    exact .inl (bufferWf_writeFrom canonical _ _ (by rw [rowBytes_length]; exact statusRow_fits _))
  case error =>
    intro text s canonical
    exact .inl (bufferWf_writeFrom canonical _ _ (by rw [rowBytes_length]; exact errorRow_fits _))
  case toggle => exact fun _ _ => .inl bufferWf_blankBuffer
  case begin => exact fun _ _ => .inl bufferWf_blankBuffer
  case restoreInvalid =>
    intros
    exact .inr ⟨_, rfl⟩
  case restoreValid =>
    intros
    exact .inr ⟨_, rfl⟩
  all_goals
    intros
    left
    assumption

/-- R112: what `RESTORE` commits is the listing of `BUF_SIZE` bytes. -/
theorem exec_restore_bufferWf {k : StreamId} {s t : State} (canonical : bufferWf s.buffer = true)
    (executes : exec (.restore k) s = .next t) : bufferWf t.buffer = true := by
  by_cases valid : ValidSource (streamOf s k)
  · obtain ⟨u, restores, -, canonical_u, -⟩ := exec_restore_loads valid
    obtain rfl := Host.Outcome.next.inj (restores.symm.trans executes)
    exact canonical_u
  · obtain ⟨u, refuses, ⟨buffer_kept, -⟩, -⟩ := exec_restore_refuses valid
    obtain rfl := Host.Outcome.next.inj (refuses.symm.trans executes)
    rwa [buffer_kept]

theorem exec_keeps_stateInv {i : Instr} {s t : State} (inv : StateInv s)
    (executes : exec i s = .next t) : StateInv t := by
  obtain ⟨canonical_buffer, canonical_streams⟩ := inv
  constructor
  · rcases exec_bufferWf_cases i s t executes canonical_buffer with canonical | ⟨k, rfl⟩
    · exact canonical
    · exact exec_restore_bufferWf canonical_buffer executes
  · rcases exec_streams_cases i s t executes with kept | ⟨k, bytes, -, put⟩
    · rwa [kept]
    · rw [put]
      exact streamsWf_put canonical_streams k bytes

/-- Settles O3: a step is idle or executes an operation, and taking an operation from the list changes
neither buffer nor streams. -/
theorem everyStepKeepsTheInvariant : Obligations.EveryStepKeepsTheInvariant := by
  intro s t inv steps
  rcases step_cases s with ⟨-, idle⟩ | ⟨r, rest, i, -, -, runs⟩ | ⟨r, rest, e, -, -, refuses⟩
  · obtain rfl := Host.Outcome.next.inj (idle.symm.trans steps)
    exact inv
  · exact exec_keeps_stateInv (s := { s with pending := rest }) inv (runs.symm.trans steps)
  · cases refuses.symm.trans steps

/-! ### Refusals (30_encoding R70) -/

theorem refusalOf_injective : Function.Injective refusalOf := by
  rintro (w | c | c) (w' | c' | c') same <;> cases same <;> rfl

/-- A step is refused by the name of the decoder's error, and for no other reason. -/
theorem step_refused_iff {s : State} {r : Request} {rest : List Request} (e : DecodeError)
    (issued : s.pending = r :: rest) :
    step s = .refused (refusalOf e) ↔ decode r = .error e := by
  cases decodes : decode r with
  | ok i =>
    obtain ⟨t, executes⟩ := exec_completes i { s with pending := rest }
    simp [step_of_decodes issued decodes, executes]
  | error e' => simp [step_of_reserved issued decodes, refusalOf_injective.eq_iff]

/-- Settles O8: a refusal is the decoder's, whose reserved words and codes are R69's. -/
theorem reservedEncodingsAreRefused : Obligations.ReservedEncodingsAreRefused :=
  ⟨fun _ w _ issued => (step_refused_iff (.reservedBusWord w) issued).trans (decodeBus_reserved_iff w),
    fun _ c o _ issued =>
      (step_refused_iff (.reservedHostCode c) issued).trans (decodeHost_reserved_iff c o)⟩

/-! ### Runs -/

/-- One step of a run on which the agents conform. -/
theorem step_of_conforming {s : State} (conforms : Conforming s) :
    ∃ t, step s = .next t ∧ Conforming t := by
  cases issued : s.pending with
  | nil => exact ⟨s, step_of_nothing_issued issued, conforms⟩
  | cons r rest =>
    rw [Conforming, issued, List.forall_mem_cons] at conforms
    obtain ⟨⟨i, decodes⟩, rest_conforms⟩ := conforms
    obtain ⟨t, executes⟩ := exec_completes i { s with pending := rest }
    have rest_pending : t.pending = rest := exec_keeps_pending _ _ _ executes
    refine ⟨t, (step_of_decodes issued decodes).trans executes, ?_⟩
    rwa [Conforming, rest_pending]

/-- Settles O6: by induction on the number of steps. -/
theorem conformingRunsNeverStop : Obligations.ConformingRunsNeverStop := by
  intro k
  induction k with
  | zero => exact fun s conforms => ⟨s, rfl, conforms⟩
  | succ k ih =>
    intro s conforms
    obtain ⟨t, steps, conforms_t⟩ := step_of_conforming conforms
    rw [run_succ steps]
    exact ih t conforms_t

/-- Settles O7: by induction on the list; the first operation is executed by the first step, and leaves
the others issued. -/
theorem runExecutesTheIssuedOperationsInOrder : Obligations.RunExecutesTheIssuedOperationsInOrder := by
  intro is
  induction is with
  | nil =>
    rintro ⟨buffer, cursor, doubleSize, response, streams, pending⟩ rfl
    exact ⟨_, rfl, rfl, rfl⟩
  | cons i is ih =>
    intro s issued
    obtain ⟨t, executes⟩ := exec_completes i { s with pending := is.map encode }
    have others_issued : t.pending = is.map encode := exec_keeps_pending _ _ _ executes
    have steps : step s = .next t := (step_of_decodes issued (decode_encode i)).trans executes
    obtain ⟨u, runs, none_pending, executes_all⟩ := ih t others_issued
    exact ⟨u, (run_succ steps is.length).trans runs, none_pending,
      (execList_cons (exec_pending executes []) is).trans executes_all⟩

/-- R29: a step on an issued operation does not depend on the past answer. -/
theorem step_ignores_response {s : State} (some_issued : s.pending ≠ []) (past : Option Response) :
    step { s with response := past } = step s := by
  obtain ⟨r, rest, issued⟩ := List.exists_cons_of_ne_nil some_issued
  cases decodes : decode r with
  | ok i =>
    rw [step_of_decodes issued decodes, step_of_decodes (s := { s with response := past }) issued decodes]
    exact exec_ignores_response i { s with pending := rest } past
  | error e =>
    rw [step_of_reserved issued decodes, step_of_reserved (s := { s with response := past }) issued decodes]

/-- A run of at least one step goes by its first step. -/
theorem run_succ_congr {s t : State} (same_step : step s = step t) (k : Nat) :
    Sys2Proof.core.run (k + 1) s = Sys2Proof.core.run (k + 1) t := by
  have same_core_step : Sys2Proof.core.step s = Sys2Proof.core.step t := same_step
  simp only [Host.Core.run, same_core_step]

/-- Settles O38: the first operation writes its answer over the past one. -/
theorem noOperationReadsThePastAnswer : Obligations.NoOperationReadsThePastAnswer :=
  ⟨exec_ignores_response,
    fun k _ past some_issued => run_succ_congr (step_ignores_response some_issued past) k⟩

end Sys2Proof.Machine
end

section
/-! Writing a row again and writing two rows in either order (spec 41_text_lines, corner cases of R91
and R92): a canonical buffer is determined by its cells, so the laws are about the cells written. -/

namespace Sys2Proof.Machine

open Sys2Proof.Safety

/-! ### Writes of consecutive cells -/

section Writes

variable {m : List Host.Cell} {base base' : Nat} {bytes bytes' : List Byte}

theorem bufferWriteFrom_idem (canonical : bufferWf m = true)
    (fits : base + bytes.length ≤ Config.bufSize) :
    bufferWriteFrom (bufferWriteFrom m base bytes) base bytes = bufferWriteFrom m base bytes := by
  have once := bufferWf_writeFrom canonical base bytes fits
  refine bufferWf_ext (bufferWf_writeFrom once base bytes fits) once fun i _ => ?_
  simp only [bufferRead_writeFrom]
  split <;> rfl

theorem bufferWriteFrom_comm (canonical : bufferWf m = true)
    (before : base + bytes.length ≤ base') (fits : base' + bytes'.length ≤ Config.bufSize) :
    bufferWriteFrom (bufferWriteFrom m base bytes) base' bytes' =
      bufferWriteFrom (bufferWriteFrom m base' bytes') base bytes := by
  have fits_first : base + bytes.length ≤ Config.bufSize := by omega
  refine bufferWf_ext (bufferWf_writeFrom (bufferWf_writeFrom canonical _ _ fits_first) _ _ fits)
    (bufferWf_writeFrom (bufferWf_writeFrom canonical _ _ fits) _ _ fits_first) fun i _ => ?_
  simp only [bufferRead_writeFrom]
  by_cases in_second : base' ≤ i ∧ i - base' < bytes'.length
  · have not_in_first : ¬ (base ≤ i ∧ i - base < bytes.length) := by omega
    rw [dif_pos in_second, dif_neg not_in_first, dif_pos in_second]
  · rw [dif_neg in_second, dif_neg in_second]

end Writes

/-! ### Rows -/

/-- A row written again, whatever was answered in between, is the row written once. -/
theorem writeRow_answer_writeRow {base w : Nat} {s : State} (canonical : bufferWf s.buffer = true)
    (fits : base + w ≤ Config.bufSize) (text : List Byte) (p q : Port) (c d : Condition)
    (v u : Option Value) :
    answer q d u (writeRow base w text (answer p c v (writeRow base w text s))) =
      answer q d u (writeRow base w text s) := by
  have same_buffer := bufferWriteFrom_idem (bytes := rowBytes w text) canonical
    (by rwa [rowBytes_length])
  simp only [answer, writeRow, same_buffer]

theorem execList_status_status {s : State} (canonical : bufferWf s.buffer = true)
    (text : List Byte) : execList [.status text, .status text] s = exec (.status text) s := by
  rw [execList_pair (exec_status text s), exec_status, exec_status]
  exact congrArg _ (writeRow_answer_writeRow canonical (statusRow_fits _) text ..)

theorem execList_error_error {s : State} (canonical : bufferWf s.buffer = true)
    (text : List Byte) : execList [.error text, .error text] s = exec (.error text) s := by
  rw [execList_pair (exec_error text s), exec_error, exec_error]
  exact congrArg _ (writeRow_answer_writeRow canonical (errorRow_fits _) text ..)

/-- The error row ends where the status row begins, so neither writes a cell of the other. -/
theorem statusRow_errorRow_comm {s : State} (canonical : bufferWf s.buffer = true) (m : Bool)
    (text text' : List Byte) :
    bufferWriteFrom (bufferWriteFrom s.buffer (errorBase m) (rowBytes (cols m) text'))
        (statusBase m) (rowBytes (cols m) text) =
      bufferWriteFrom (bufferWriteFrom s.buffer (statusBase m) (rowBytes (cols m) text))
        (errorBase m) (rowBytes (cols m) text') := by
  apply bufferWriteFrom_comm canonical
  · rw [rowBytes_length, errorRow_before_statusRow]
  · rw [rowBytes_length]
    exact statusRow_fits m

/-- Settles O25: a row written twice, and the two rows written in either order. -/
theorem rowOperationsAreIdempotentAndIndependent :
    Obligations.RowOperationsAreIdempotentAndIndependent := by
  rintro text text' s ⟨canonical, -⟩
  refine ⟨execList_status_status canonical text, execList_error_error canonical text, _, _,
    (execList_pair (exec_status text s)).trans (exec_error text' _),
    (execList_pair (exec_error text' s)).trans (exec_status text _), ?_, rfl, rfl⟩
  exact statusRow_errorRow_comm canonical s.doubleSize text text'

end Sys2Proof.Machine
end

section
/-! Beside the operations (spec 20_memory R48, R49, R53): the screen that the scan port shows, and the
window on the system bus. -/

namespace Sys2Proof.Machine

/-! ### The screen -/

theorem screen_length (m : Bool) (b : List Host.Cell) : (screen m b).length = 25 := by
  simp [screen, Config.rows]

theorem screen_getElem? (m : Bool) (b : List Host.Cell) {r : Nat} (on_screen : r < 25) :
    (screen m b)[r]? = some (screenRow m b r) := by
  simp [screen, Config.rows, on_screen]

theorem screenRow_length (m : Bool) (b : List Host.Cell) (r : Nat) :
    (screenRow m b r).length = cols m := by
  simp [screenRow]

theorem screenRow_getElem? (m : Bool) (b : List Host.Cell) (r : Nat) {c : Nat} (in_row : c < cols m) :
    (screenRow m b r)[c]? = some (bufferRead b (rowBase m r + c)) := by
  simp [screenRow, in_row]

/-- R48: the cells of a row of the screen are visible cells. -/
theorem rowBase_add_lt_visible {m : Bool} {r c : Nat} (on_screen : r < 25) (in_row : c < cols m) :
    rowBase m r + c < visible m := by
  have row_ends : (r + 1) * cols m ≤ 25 * cols m := Nat.mul_le_mul_right (cols m) on_screen
  rw [Nat.succ_mul] at row_ends
  rw [rowBase_eq, visible_eq]
  omega

theorem screen_bufferWrite_offScreen {m : Bool} {i : Nat} (off_screen : visible m ≤ i)
    (b : List Host.Cell) (v : Byte) : screen m (bufferWrite b i v) = screen m b := by
  refine List.map_congr_left fun r row_mem => List.map_congr_left fun c column_mem => ?_
  have shown := rowBase_add_lt_visible (List.mem_range.1 row_mem) (List.mem_range.1 column_mem)
  exact bufferRead_write_other b v (by omega)

/-- Settles O45: rows and columns by their index, and no shown cell is an off-screen one. -/
theorem screenShowsTheVisibleCells : Obligations.ScreenShowsTheVisibleCells :=
  ⟨screen_length,
    fun m b r on_screen => ⟨screenRow m b r, screen_getElem? m b on_screen, screenRow_length m b r,
      fun _ => screenRow_getElem? m b r⟩,
    fun _ b _ v off_screen => screen_bufferWrite_offScreen off_screen b v⟩

/-! ### The window -/

/-- R49: inside the window the base is subtracted. -/
theorem windowOffset_devBase_add {a : Nat} (legal : a < Config.bufSize) :
    windowOffset (Config.devBase + a) = some a := by
  rw [windowOffset, if_pos (by omega), Nat.add_sub_cancel_left]

theorem windowOffset_outside {x : Nat}
    (outside : x < Config.devBase ∨ Config.devBase + Config.bufSize ≤ x) : windowOffset x = none := by
  rw [windowOffset, if_neg (by omega)]

/-- Settles O47: the two branches of the range check. -/
theorem windowIsTheIdentityFromDevBase : Obligations.WindowIsTheIdentityFromDevBase :=
  ⟨fun _ => windowOffset_devBase_add, fun _ => windowOffset_outside⟩

end Sys2Proof.Machine
end
